-- ==== Sys2Proof/Word.lean ====
section
/-! DEFINITION. The word types of the host port and of the stored cells (10_state.md R21, R35 to R37; 20_memory.md R60). -/

namespace Sys2Proof

/-- A word on the 32-bit host data path, and a command word (R60, R100). -/
abbrev Word := BitVec 32

/-- A 16-bit word address of the host port (R60). -/
abbrev Addr := BitVec 16

/-- A coefficient or level: one `BLK` register, signed 16 bits (R21). -/
abbrev Coef := BitVec 16

/-- A `MF` or `DQMF` cell, unsigned 16 bits (R35, R37). -/
abbrev Mult := BitVec 16

/-- A `BIAS` cell, unsigned 15 bits (R36). -/
abbrev Bias := BitVec 15

/-- The identifier of a variant, 8 bits (R32, R33). -/
abbrev VariantId := BitVec 8

end Sys2Proof
end

