-- ==== Sys2Proof/Syntax.lean ====
section
/-! DEFINITION. The three commands of the block, one constructor per row of spec/opcode_table.json (30_encoding.md R100, R103). -/

namespace Sys2Proof

/-- A command. `ch` is the channel operand and `qp` the quantization parameter, both as the unsigned numbers the
command word carries (R102); `Instr.wf` says which numbers a command word can carry. -/
inductive Instr where
  /-- `DISPATCH`: bind the variants and freeze the tables (42_dispatch.md R181). -/
  | dispatch
  /-- `QUANT ch, qp`: the forward quantizer (40_quant.md R131). -/
  | quant (ch qp : Nat)
  /-- `DEQUANT ch, qp`: the inverse quantizer (41_dequant.md R161). -/
  | dequant (ch qp : Nat)
  deriving DecidableEq, Repr

end Sys2Proof
end

