-- ==== Sys2Proof/WellFormed.lean ====
section
/-! DEFINITION. Which commands a command word can carry: the operand ranges of format C (30_encoding.md R101, R102). -/

namespace Sys2Proof

/-- The `ch` field has 4 bits: 0 to 15 (R101). Values of `NCH` and above are well-formed and raise `BADCH` (R105). -/
def chFits (ch : Nat) : Bool := decide (ch < 16)

/-- The `qp` field has 8 bits: 0 to 255 (R101, R102). Values 64 to 255 are well-formed and raise `QPRANGE` (R105). -/
def qpFits (qp : Nat) : Bool := decide (qp < 256)

/-- A command is well-formed when its operands fit their fields. -/
def Instr.wf : Instr → Bool
  | .dispatch => true
  | .quant ch qp => chFits ch && qpFits qp
  | .dequant ch qp => chFits ch && qpFits qp

end Sys2Proof
end

