-- ==== Sys2Proof/Decode.lean ====
section
/-! DEFINITION. The command decoder, total on all 2^32 words and rejecting by name, and the encoder (30_encoding.md R101 to R110). -/

namespace Sys2Proof

/-- `w[hi:lo]`: the unsigned value of bits `hi` down to `lo` of a word (00_scope.md R10). -/
def bits (w : Word) (hi lo : Nat) : Nat := w.toNat / 2 ^ lo % 2 ^ (hi + 1 - lo)

/-- Why a word is an illegal command (R105); each of them raises `BADCMD` (steps 1 to 3 of R104). -/
inductive Illegal where
  /-- `op` is 0 or 4 to 15. -/
  | reservedOp
  /-- A bit of 23:8 is set. -/
  | nonzeroZeroField
  /-- A `DISPATCH` word with a bit of `ch` or `qp` set. -/
  | dispatchOperand
  deriving DecidableEq, Repr

/-- The decoder of R107: one of the three commands, or illegal. The order of the tests is steps 1 to 3 of R104. -/
def decode (w : Word) : Except Illegal Instr :=
  let op := bits w 31 28
  let ch := bits w 27 24
  let z := bits w 23 8
  let qp := bits w 7 0
  if op ≠ 1 ∧ op ≠ 2 ∧ op ≠ 3 then .error .reservedOp
  else if z ≠ 0 then .error .nonzeroZeroField
  else if op = 1 then
    if ch ≠ 0 ∨ qp ≠ 0 then .error .dispatchOperand else .ok .dispatch
  else if op = 2 then .ok (.quant ch qp)
  else .ok (.dequant ch qp)

/-- Format C with a zero field 23:8 (R101, R108): `op` in bits 31:28, `ch` in bits 27:24, `qp` in bits 7:0. -/
def formatC (op ch qp : Nat) : Word := BitVec.ofNat 32 (op * 2 ^ 28 + ch * 2 ^ 24 + qp)

/-- The encoding function `enc` of R110. -/
def encode : Instr → Word
  | .dispatch => formatC 1 0 0
  | .quant ch qp => formatC 2 ch qp
  | .dequant ch qp => formatC 3 ch qp

/-- The command the decoder reads from a word numbered as spec/opcode_table.json numbers it: a command is one 32-bit
word delivered whole (R100), so the word is the number's low `nbits` bits, the bits above them 0. -/
def decodeTableWord (nbits w : Nat) : Option Instr :=
  match decode (BitVec.ofNat 32 (w % 2 ^ nbits)) with
  | .ok i => some i
  | .error _ => none

end Sys2Proof
end

