-- ==== Sys2Proof/Config.lean ====
section
/-! DEFINITION. The parameters `cfg` of the block, their well-formedness `WF(cfg)`, and the parameters the reset state carries (00_scope.md R7, R8; 42_dispatch.md R180). -/

namespace Sys2Proof

/-- One entry of a catalog: `id` names a variant, `gate` is the mask of the feature bits it needs (R180). -/
structure CatEntry where
  id : Nat
  gate : Nat
  deriving DecidableEq, Repr

/-- The parameter record of R7. `BASE` is not in it: no rule of the block uses it (92_eei_decisions.md D13). -/
structure Config where
  /-- `QTAB`, the source's `quant8_table`. -/
  qtab : List Nat
  /-- `SHTAB`, the source's `dequant_shifttable`. -/
  shtab : List Nat
  /-- `ACCW`, the width of the signed quantizer accumulator. -/
  accw : Nat
  /-- `NCH`, the number of channels. -/
  nch : Nat
  /-- `CAT_Q`, the quantizer variants. -/
  catQ : List CatEntry
  /-- `CAT_DQ`, the generic dequantizer variants. -/
  catDq : List CatEntry
  /-- `CAT_DQFLAT`, the flat-preset dequantizer variants. -/
  catDqFlat : List CatEntry
  deriving DecidableEq, Repr

/-- Clauses (c) and (d) of R8: entry `q + 1` is at most entry `q`, for `q` in 0 to 62. -/
def nonIncreasing (t : List Nat) : Bool :=
  (List.range 63).all fun q => decide (t.getD (q + 1) 0 ≤ t.getD q 0)

/-- The ranges of clause (g) of R8 for one entry. -/
def CatEntry.inRange (e : CatEntry) : Bool := decide (e.id ≤ 255) && decide (e.gate ≤ 2 ^ 32 - 1)

/-- The first part of clause (g) of R8: non-empty, and the first entry has `gate = 0`. -/
def hasBaseline : List CatEntry → Bool
  | [] => false
  | e :: _ => decide (e.gate = 0)

/-- `WF(cfg)`, the clauses (a) to (g) of R8 in order. -/
def Config.wf (c : Config) : Bool :=
  (decide (c.qtab.length = 64) && decide (c.shtab.length = 64))
  && (c.qtab.all (fun v => decide (v ≤ 65535)) && c.shtab.all (fun v => decide (1 ≤ v ∧ v ≤ 15)))
  && nonIncreasing c.qtab
  && nonIncreasing c.shtab
  && decide (32 ≤ c.accw)
  && decide (1 ≤ c.nch ∧ c.nch ≤ 16)
  && ((hasBaseline c.catQ && hasBaseline c.catDq)
      && (c.catQ.all CatEntry.inRange && c.catDq.all CatEntry.inRange && c.catDqFlat.all CatEntry.inRange))

/-- A configuration with the proof that it is well-formed: R8 gives a configuration that fails `WF` no state and no
step, so no state can be built over one. -/
abbrev ValidConfig := { c : Config // c.wf = true }

/-- FREE VALUES (R7, U3): the contents of `QTAB` are in no source, and nothing in Lean can evaluate them. -/
opaque Config.freeQtab : Nat → BitVec 16

/-- FREE VALUES (R7, U3): the contents of `SHTAB` are in no source, and nothing in Lean can evaluate them. -/
opaque Config.freeShtab : Nat → BitVec 4

/-- FREE VALUES (10_state.md R42, R43, U2): what the `BLK` register at a word address holds after reset, before anything
has written it. No rule gives these values and nothing in Lean can evaluate them. The first argument counts the resets,
because each of them leaves the registers unspecified anew. Assumption log 21. -/
opaque Config.freeBlk : Nat → Nat → BitVec 16

/-- The least of `f 0` to `f n`: turns a free sequence into a non-increasing one, and leaves a non-increasing one as it is. -/
def runningMin (f : Nat → Nat) : Nat → Nat
  | 0 => f 0
  | n + 1 => min (runningMin f n) (f (n + 1))

/-- The parameters of `State.reset`: free tables, constrained by `WF` alone, and the spec's defaults for everything
else (R7, "Open parameters in one place" of 92_eei_decisions.md). Assumption log 2. -/
def Config.given : Config where
  qtab := (List.range 64).map (runningMin fun q => (Config.freeQtab q).toNat)
  shtab := (List.range 64).map (runningMin fun q => max 1 (Config.freeShtab q).toNat)
  accw := 32
  nch := 1
  catQ := [⟨0, 0⟩]
  catDq := [⟨0, 0⟩]
  catDqFlat := []

theorem runningMin_le (f : Nat → Nat) (n : Nat) : runningMin f n ≤ f n := by
  cases n with
  | zero => exact Nat.le_refl _
  | succ n => exact Nat.min_le_right _ _

theorem le_runningMin (f : Nat → Nat) (b : Nat) (h : ∀ k, b ≤ f k) (n : Nat) : b ≤ runningMin f n := by
  induction n with
  | zero => exact h 0
  | succ n ih => exact Nat.le_min.mpr ⟨ih, h _⟩

/-- The running minimum of a non-increasing sequence is that sequence: every well-formed table is a value of the free ones. -/
theorem runningMin_of_nonIncreasing (f : Nat → Nat) (h : ∀ n, f (n + 1) ≤ f n) (n : Nat) : runningMin f n = f n := by
  induction n with
  | zero => rfl
  | succ n ih => simp [runningMin, ih, h n]

theorem nonIncreasing_map_runningMin (f : Nat → Nat) :
    nonIncreasing ((List.range 64).map (runningMin f)) = true := by
  simp only [nonIncreasing, List.all_eq_true, List.mem_range, decide_eq_true_eq]
  intro q hq
  have h1 : q + 1 < 64 := by omega
  have h2 : q < 64 := by omega
  simp [List.getD_eq_getElem?_getD, h1, h2, runningMin]

theorem Config.given_wf : Config.given.wf = true := by
  have hq : ∀ n, runningMin (fun q => (Config.freeQtab q).toNat) n ≤ 65535 := fun n =>
    Nat.le_trans (runningMin_le _ n) (Nat.le_of_lt_succ (Config.freeQtab n).isLt)
  have hs1 : ∀ n, 1 ≤ runningMin (fun q => max 1 (Config.freeShtab q).toNat) n :=
    le_runningMin _ 1 fun k => Nat.le_max_left _ _
  have hs2 : ∀ n, runningMin (fun q => max 1 (Config.freeShtab q).toNat) n ≤ 15 := fun n =>
    Nat.le_trans (runningMin_le _ n) (Nat.max_le.mpr ⟨by decide, Nat.le_of_lt_succ (Config.freeShtab n).isLt⟩)
  simp [Config.wf, Config.given, nonIncreasing_map_runningMin, hasBaseline, CatEntry.inRange, hq, hs1, hs2]

/-- The well-formed parameters `State.reset` carries. -/
def Config.givenValid : ValidConfig := ⟨Config.given, Config.given_wf⟩

end Sys2Proof
end

