-- ==== Sys2Proof/Machine/State.lean ====
section
/-! DEFINITION. The state of the machine as plain data, the model-level faults and refusals, and the state after reset (10_state.md R20 to R44; 70_reset_and_hazards.md R240). -/

namespace Sys2Proof.Machine

/-- `PHASE` (R26). The value 3 never occurs, so it is no constructor. -/
inductive Phase where
  | config
  | ready
  | fault
  deriving DecidableEq, Repr

/-- `FCODE` (R27, 60_exceptions.md R201). The values 9 to 15 are never produced, so they are no constructors. -/
inductive FaultCode where
  | none
  | badAddr
  | roWrite
  | frozen
  | range
  | badCmd
  | badCh
  | qpRange
  | badPhase
  deriving DecidableEq, Repr

/-- `CQM` (R31): 0 is FLAT, 1 is CUSTOM. -/
inductive Preset where
  | flat
  | custom
  deriving DecidableEq, Repr

/-- A memory of `w`-bit cells: (host word address, value) pairs, addresses strictly rising (`Memory.wf`). An address
that is not listed is "unwritten" (R43). -/
abbrev Memory (w : Nat) := List (Nat × BitVec w)

/-- What the host does next: a transaction (20_memory.md R60) or an assertion of the reset input (R240). -/
inductive HostOp where
  /-- `HostRead(a)`. -/
  | read (a : Addr)
  /-- `HostWrite(a, d)`. -/
  | write (a : Addr) (d : Word)
  /-- Assertion of `rst`; not a transaction (R108). -/
  | reset
  deriving DecidableEq, Repr

/-- A transaction for which the spec gives the model no result: the machine stops. These are the model-level faults of
60_exceptions.md R202; neither is a value of `FCODE`. -/
inductive Fault where
  /-- `M_UNINIT`: raised by a host read, a `QUANT` or a `DEQUANT` that uses a cell nothing has written since reset (R43;
  60_exceptions.md R202, U2, D40). For a cell of `MF`, `BIAS` or `DQMF` the machine stops with it (assumption log 5). Safe:
  the hardware goes on with whatever the cell holds. For a register of `BLK` the step raises it in the next state's
  `modelFault` and goes on, as the hardware does (assumption log 21, which says where that is unsafe), but a `QUANT` that
  cannot go on for want of `Pacc` stops with it (assumption log 6). -/
  | mUninit
  /-- `M_QOVF`: raised by a `QUANT` over written cells whose accumulator precondition fails for some position (40_quant.md
  R135, U1).
  Safe: the hardware leaves unspecified values and goes on. -/
  | mQovf
  deriving DecidableEq, Repr

/-- A transaction the model gives no meaning. Nothing raises one now: every command of the table has its meaning. -/
inductive Refusal where
  /-- A command whose arm of `exec` has no meaning yet. Safe: the machine stops. -/
  | notModelled (mnemonic : String)
  deriving DecidableEq, Repr

/-- The state (R20). The fields up to `nz` are the block's; `cfg` is the parameter record, which no step changes
(R41, assumption log 1); `pending` and `results` stand for the host agent (assumption log 3); `resets` and `modelFault` serve
the unwritten registers (assumption log 21). -/
structure State where
  /-- The parameters of the step relation, with `WF(cfg)` (R8, R41). It holds the constant tables `QTAB` and `SHTAB` (R38, R39). -/
  cfg : ValidConfig
  /-- `PHASE` (R26). -/
  phase : Phase
  /-- `FCODE` (R27). -/
  fcode : FaultCode
  /-- `FWE` (R27): the faulting transaction was a write. -/
  fwe : Bool
  /-- `FADDR` (R28). -/
  faddr : Addr
  /-- `FDATA` (R29). -/
  fdata : Word
  /-- `CPUFEAT` (R30). -/
  cpufeat : Word
  /-- `CQM` (R31). -/
  cqm : Preset
  /-- `QSEL` (R32). -/
  qsel : VariantId
  /-- `DQSEL` (R33). -/
  dqsel : VariantId
  /-- `MF[qp][i]` at `0x1000 + 64*qp + i` (R35). -/
  mf : Memory 16
  /-- `BIAS[qp][i]` at `0x2000 + 64*qp + i` (R36). -/
  bias : Memory 15
  /-- `DQMF[qp][i]` at `0x3000 + 64*qp + i` (R37). -/
  dqmf : Memory 16
  /-- `BLK[ch][i]` at `0x4000 + 0x100*ch + i` (R21), as far as something has written it since reset (R43). A register that is
  not listed holds a free value (`State.blkAt`). -/
  blk : Memory 16
  /-- `NZ[ch]` (R25). Only the channels below `cfg.NCH` exist; the others stay 0 (assumption log 17). -/
  nz : Vector Bool 16
  /-- The host operations still to come, first first (20_memory.md R70). -/
  pending : List HostOp
  /-- The words the host has read, in order (20_memory.md R62). -/
  results : List Word
  /-- How many times the reset input has been asserted. -/
  resets : Nat
  /-- The model-level fault a step of the run has raised and gone on from: `M_UNINIT` once an unwritten `BLK` register was
  used (R43, 60_exceptions.md R202). It belongs to the run and not to the block: no reset clears it. -/
  modelFault : Option Fault
  deriving DecidableEq, Repr

/-- The `id` of a catalog's first entry, its baseline (R32, R33, R42). -/
def baselineId : List CatEntry → VariantId
  | [] => 0
  | e :: _ => BitVec.ofNat 8 e.id

/-- The state after reset of a block with parameters `c` (R42). No `BLK` register is listed: each holds its free value
(assumption log 21). The host has nothing to do and has read nothing. -/
def State.resetOf (c : ValidConfig) : State where
  cfg := c
  phase := .config
  fcode := .none
  fwe := false
  faddr := 0
  fdata := 0
  cpufeat := 0
  cqm := .flat
  qsel := baselineId c.val.catQ
  dqsel := baselineId c.val.catDq
  mf := []
  bias := []
  dqmf := []
  blk := []
  nz := Vector.replicate 16 false
  pending := []
  results := []
  resets := 0
  modelFault := none

/-- The reset state over any parameters; parameters that fail `WF` are refused: no state, and so no step (R8). -/
def State.ofConfig (c : Config) : Option State :=
  if h : c.wf = true then some (State.resetOf ⟨c, h⟩) else none

/-- The machine right after reset: R42 over the parameters of assumption log 2. -/
def State.reset : State := State.resetOf Config.givenValid

end Sys2Proof.Machine
end

