-- ==== Sys2Proof/Machine/Ops.lean ====
section
/-! DEFINITION. The named operations: memory cells and rows, the flag and parameter accessors, answering a read, fault entry and reset (20_memory.md R62 to R70; 60_exceptions.md R203; 70_reset_and_hazards.md R240). -/

namespace Sys2Proof.Machine

/-- What an address that is not listed holds as far as the memory says: nothing, it is unwritten (10_state.md R43). -/
def Memory.unlisted (w : Nat) : Option (BitVec w) := none

/-- The cell at address `a`. -/
def Memory.read {w : Nat} : Memory w → Nat → Option (BitVec w)
  | [], _ => Memory.unlisted w
  | (k, v) :: m, a => if k = a then some v else Memory.read m a

/-- Write the cell at address `a`, keeping the addresses strictly rising. -/
def Memory.write {w : Nat} : Memory w → Nat → BitVec w → Memory w
  | [], a, x => [(a, x)]
  | (k, v) :: m, a, x =>
    if a < k then (a, x) :: (k, v) :: m
    else if a = k then (a, x) :: m
    else (k, v) :: Memory.write m a x

/-- The canonical form: addresses strictly rising. Every listed cell is written, so no entry equals what an unlisted
address holds. -/
def Memory.wf {w : Nat} : Memory w → Bool
  | [] => true
  | [_] => true
  | (k, _) :: (k', v') :: m => decide (k < k') && Memory.wf ((k', v') :: m)

/-- The `n` cells from address `a` on; nothing when one of them is unwritten. -/
def Memory.readRow {w : Nat} (m : Memory w) (a : Nat) : Nat → Option (List (BitVec w))
  | 0 => some []
  | n + 1 =>
    match m.read a, Memory.readRow m (a + 1) n with
    | some v, some vs => some (v :: vs)
    | _, _ => none

/-- Write values to consecutive cells from address `a` on. -/
def Memory.writeRow {w : Nat} (m : Memory w) (a : Nat) : List (BitVec w) → Memory w
  | [] => m
  | v :: vs => Memory.writeRow (m.write a v) (a + 1) vs

/-- `cfg.NCH`. -/
def State.nch (s : State) : Nat := s.cfg.val.nch

/-- `cfg.ACCW`. -/
def State.accw (s : State) : Nat := s.cfg.val.accw

/-- `QTAB[qp]` (10_state.md R38). -/
def State.qtab (s : State) (qp : Nat) : Nat := s.cfg.val.qtab.getD qp 0

/-- `SHTAB[qp]` (10_state.md R39). -/
def State.shtab (s : State) (qp : Nat) : Nat := s.cfg.val.shtab.getD qp 0

/-- What the `BLK` register at word address `a` holds (10_state.md R21): what was last written to it since reset, and before
that a free value (R42 gives none; 93_implementation_defined.md U2; assumption log 21). -/
def State.blkAt (s : State) (a : Nat) : Coef := (s.blk.read a).getD (Config.freeBlk s.resets a)

/-- `NZ[ch]` (10_state.md R25). -/
def State.nzOf (s : State) (ch : Nat) : Bool := s.nz[ch]?.getD false

/-- `NZ[ch] <- b`. -/
def State.setNz (s : State) (ch : Nat) (b : Bool) : State := { s with nz := s.nz.setIfInBounds ch b }

/-- A host read returns `v`. -/
def State.answer (s : State) (v : Word) : State := { s with results := s.results ++ [v] }

/-- The step raises the model-level fault `M_UNINIT` if an unwritten register was used, and goes on (10_state.md R43;
60_exceptions.md R202; assumption log 21). -/
def State.reportUninit (s : State) (used : Bool) : State :=
  { s with modelFault := bif used then some .mUninit else s.modelFault }

/-- FAULT ENTRY, `raise X(a, d)` in CONFIG or READY phase (60_exceptions.md R203): exactly these five writes. There is no
return from it but reset (R216). -/
def raiseFault (code : FaultCode) (a : Addr) (d : Word) (isWrite : Bool) (s : State) : State :=
  { s with fcode := code, faddr := a, fdata := d, fwe := isWrite, phase := .fault }

/-- The word address of `CMD` (10_state.md R34). -/
def cmdAddr : Addr := 0x0008

/-- A fault raised by a command: the address is that of `CMD`, the data is the command word (10_state.md R28, R29). The
word of a decoded command is its encoding (30_encoding.md R110; assumption log 7). -/
def raiseCommand (code : FaultCode) (i : Instr) (s : State) : State :=
  raiseFault code cmdAddr (encode i) true s

/-- RESET (70_reset_and_hazards.md R240): every piece of the block's state at its reset value, in any phase. The
parameters, what the host has read, what it will still do and what the run has reported are not the block's state. Each
reset gives the unwritten registers new free values (assumption log 21). -/
def resetBlock (s : State) : State :=
  { State.resetOf s.cfg with
    pending := s.pending, results := s.results, resets := s.resets + 1, modelFault := s.modelFault }

/-- The checks a well-formed `QUANT` or `DEQUANT` passes before it runs, in the order of steps 5 to 7 of
30_encoding.md R104 (60_exceptions.md R214). In FAULT phase the write that carries it is ignored (R219). -/
def checkBlockCommand (i : Instr) (ch qp : Nat) (s : State)
    (run : State → Host.Outcome State Fault Refusal) : Host.Outcome State Fault Refusal :=
  match s.phase with
  | .fault => .next s
  | .config => .next (raiseCommand .badPhase i s)
  | .ready =>
    if s.nch ≤ ch then .next (raiseCommand .badCh i s)
    else if 64 ≤ qp then .next (raiseCommand .qpRange i s)
    else run s

end Sys2Proof.Machine
end

