-- ==== Sys2Proof/Machine/Operands.lean ====
section
/-! DEFINITION. Operands: the address map, the access kinds, the values on the 32-bit data path, the legal values, and the integer operations every rule uses (00_scope.md R10 to R12; 20_memory.md R61 to R65). -/

namespace Sys2Proof.Machine

/-! ## Integer operations -/

/-- `a >> n = floor(a / 2^n)`, for negative `a` too (00_scope.md R11; 92_eei_decisions.md D10). -/
def shr (a : Int) (n : Nat) : Int := a / 2 ^ n

/-- `clamp16` (00_scope.md R12). -/
def clamp16 (v : Int) : Int :=
  if v < -32768 then -32768 else if 32767 < v then 32767 else v

/-- `sext_16` into 32 bits (00_scope.md R12, 10_state.md R23). -/
def sext16 (v : Coef) : Word := v.signExtend 32

/-- The low 16 bits of a data word, `d[15:0]`. -/
def low16 (d : Word) : Coef := d.setWidth 16

/-! ## The address map (20_memory.md R61) -/

/-- Word address of `MF[qp][i]`. -/
def mfAddr (qp i : Nat) : Nat := 0x1000 + 64 * qp + i

/-- Word address of `BIAS[qp][i]`. -/
def biasAddr (qp i : Nat) : Nat := 0x2000 + 64 * qp + i

/-- Word address of `DQMF[qp][i]`. -/
def dqmfAddr (qp i : Nat) : Nat := 0x3000 + 64 * qp + i

/-- Word address of `BLK[ch][i]`. -/
def blkAddr (ch i : Nat) : Nat := 0x4000 + 0x100 * ch + i

/-- Word address of `NZ[ch]`. -/
def nzAddr (ch : Nat) : Nat := 0x4040 + 0x100 * ch

/-- What a word address names. -/
inductive Location where
  | unmapped
  | status
  | faddr
  | fdata
  | cpufeat
  | cqm
  | qsel
  | dqsel
  | cmd
  | qtab (qp : Nat)
  | shtab (qp : Nat)
  | mf (qp i : Nat)
  | bias (qp i : Nat)
  | dqmf (qp i : Nat)
  | blk (ch i : Nat)
  | nz (ch : Nat)
  deriving DecidableEq, Repr

/-- The registers of `0x0000` to `0x00FF`. -/
def globalLocation : Nat → Location
  | 0 => .status
  | 1 => .faddr
  | 2 => .fdata
  | 3 => .cpufeat
  | 4 => .cqm
  | 5 => .qsel
  | 6 => .dqsel
  | 8 => .cmd
  | _ => .unmapped

/-- Offset `off` of channel `ch`'s window: `BLK[ch][0..63]`, then `NZ[ch]`, then nothing. -/
def windowLocation (ch off : Nat) : Location :=
  if off < 64 then .blk ch off else if off = 64 then .nz ch else .unmapped

/-- `location(a)` for a block of `nch` channels (R61, R78). -/
def location (nch : Nat) (a : Addr) : Location :=
  let n := a.toNat
  if n < 0x0100 then globalLocation n
  else if n < 0x0140 then .qtab (n - 0x0100)
  else if n < 0x0180 then .shtab (n - 0x0140)
  else if n < 0x1000 then .unmapped
  else if n < 0x2000 then .mf ((n - 0x1000) / 64) (n % 64)
  else if n < 0x3000 then .bias ((n - 0x2000) / 64) (n % 64)
  else if n < 0x4000 then .dqmf ((n - 0x3000) / 64) (n % 64)
  else if n < 0x4000 + 0x100 * nch then windowLocation ((n - 0x4000) / 0x100) (n % 0x100)
  else .unmapped

/-- The `Access` column of R61. -/
inductive Access where
  /-- Unmapped, reserved (R78). -/
  | reserved
  /-- `RO`. -/
  | readOnly
  /-- `WO`. -/
  | writeOnly
  /-- `RW/C`: writable in CONFIG phase only. -/
  | configOnly
  /-- `RW`: writable in CONFIG and READY. -/
  | readWrite
  deriving DecidableEq, Repr

/-- The access kind of a location (R61). -/
def access : Location → Access
  | .unmapped => .reserved
  | .status => .readOnly
  | .faddr => .readOnly
  | .fdata => .readOnly
  | .cpufeat => .configOnly
  | .cqm => .configOnly
  | .qsel => .readOnly
  | .dqsel => .readOnly
  | .cmd => .writeOnly
  | .qtab _ => .readOnly
  | .shtab _ => .readOnly
  | .mf _ _ => .configOnly
  | .bias _ _ => .configOnly
  | .dqmf _ _ => .configOnly
  | .blk _ _ => .readWrite
  | .nz _ => .readOnly

/-! ## Field encodings of the registers -/

/-- The two bits of `PHASE` (10_state.md R26). -/
def phaseBits : Phase → BitVec 2
  | .config => 0
  | .ready => 1
  | .fault => 2

/-- The four bits of `FCODE` (60_exceptions.md R201). -/
def faultCodeBits : FaultCode → BitVec 4
  | .none => 0
  | .badAddr => 1
  | .roWrite => 2
  | .frozen => 3
  | .range => 4
  | .badCmd => 5
  | .badCh => 6
  | .qpRange => 7
  | .badPhase => 8

/-- The bit of `CQM` (10_state.md R31). -/
def presetBit : Preset → BitVec 1
  | .flat => 0
  | .custom => 1

/-- The preset a legal `CQM` word selects (10_state.md R31). -/
def presetOf (d : Word) : Preset := if d = 0 then .flat else .custom

/-- `STATUS`: zero 31:9, `FWE` 8, `FCODE` 7:4, zero 3:2, `PHASE` 1:0 (10_state.md R27, 20_memory.md R62). -/
def statusWord (s : State) : Word :=
  0#23 ++ BitVec.ofBool s.fwe ++ faultCodeBits s.fcode ++ 0#2 ++ phaseBits s.phase

/-! ## Reading and writing a location -/

/-- The word a host read of a mapped location returns (R62): `BLK` sign-extended, everything else zero-extended, `CMD` 0.
Nothing when the cell is an unwritten table cell (10_state.md R43). -/
def readLocation (s : State) : Location → Option Word
  | .unmapped => some 0
  | .status => some (statusWord s)
  | .faddr => some (s.faddr.setWidth 32)
  | .fdata => some s.fdata
  | .cpufeat => some s.cpufeat
  | .cqm => some ((presetBit s.cqm).setWidth 32)
  | .qsel => some (s.qsel.setWidth 32)
  | .dqsel => some (s.dqsel.setWidth 32)
  | .cmd => some 0
  | .qtab qp => some (BitVec.ofNat 32 (s.qtab qp))
  | .shtab qp => some (BitVec.ofNat 32 (s.shtab qp))
  | .mf qp i => (s.mf.read (mfAddr qp i)).map (BitVec.setWidth 32)
  | .bias qp i => (s.bias.read (biasAddr qp i)).map (BitVec.setWidth 32)
  | .dqmf qp i => (s.dqmf.read (dqmfAddr qp i)).map (BitVec.setWidth 32)
  | .blk ch i => some (sext16 (s.blkAt (blkAddr ch i)))
  | .nz ch => some ((BitVec.ofBool (s.nzOf ch)).setWidth 32)

/-- A read of the location uses a `BLK` register that nothing has written since reset (10_state.md R43). -/
def readsUnwritten (s : State) : Location → Bool
  | .blk ch i => (s.blk.read (blkAddr ch i)).isNone
  | .unmapped => false
  | .status => false
  | .faddr => false
  | .fdata => false
  | .cpufeat => false
  | .cqm => false
  | .qsel => false
  | .dqsel => false
  | .cmd => false
  | .qtab _ => false
  | .shtab _ => false
  | .mf _ _ => false
  | .bias _ _ => false
  | .dqmf _ _ => false
  | .nz _ => false

/-- `Legal(a, d)` (R65). A location that is not writable has no legal value. -/
def legal : Location → Word → Bool
  | .cpufeat, _ => true
  | .cqm, d => decide (d.toNat ≤ 1)
  | .mf _ _, d => decide (1 ≤ d.toNat ∧ d.toNat ≤ 65535)
  | .bias _ _, d => decide (d.toNat ≤ 32767)
  | .dqmf _ _, d => decide (d.toNat ≤ 65535)
  | .blk _ _, d => decide (d = sext16 (low16 d))
  | .unmapped, _ => false
  | .status, _ => false
  | .faddr, _ => false
  | .fdata, _ => false
  | .qsel, _ => false
  | .dqsel, _ => false
  | .cmd, _ => false
  | .qtab _, _ => false
  | .shtab _, _ => false
  | .nz _, _ => false

/-- `cell(a) <- d` for a legal `d` (R63). A location that is not writable keeps its value. -/
def storeLocation (l : Location) (d : Word) (s : State) : State :=
  match l with
  | .cpufeat => { s with cpufeat := d }
  | .cqm => { s with cqm := presetOf d }
  | .mf qp i => { s with mf := s.mf.write (mfAddr qp i) (low16 d) }
  | .bias qp i => { s with bias := s.bias.write (biasAddr qp i) (d.setWidth 15) }
  | .dqmf qp i => { s with dqmf := s.dqmf.write (dqmfAddr qp i) (low16 d) }
  | .blk ch i => { s with blk := s.blk.write (blkAddr ch i) (low16 d) }
  | .unmapped => s
  | .status => s
  | .faddr => s
  | .fdata => s
  | .qsel => s
  | .dqsel => s
  | .cmd => s
  | .qtab _ => s
  | .shtab _ => s
  | .nz _ => s

/-! ## The rows a command reads and the block it writes back -/

/-- `BLK[ch][0..63]`; every register holds a value. -/
def blkRow (s : State) (ch : Nat) : List Coef := (List.range 64).map fun i => s.blkAt (blkAddr ch i)

/-- Some register of channel `ch` is unwritten, so that a command of that channel uses it (10_state.md R43). -/
def State.blkUnwritten (s : State) (ch : Nat) : Bool :=
  (List.range 64).any fun i => (s.blk.read (blkAddr ch i)).isNone

/-- `MF[qp][0..63]`, the QuantMatrix (R35). -/
def mfRow (s : State) (qp : Nat) : Option (List Mult) := s.mf.readRow (mfAddr qp 0) 64

/-- `BIAS[qp][0..63]`, the BiasVector (R36). -/
def biasRow (s : State) (qp : Nat) : Option (List Bias) := s.bias.readRow (biasAddr qp 0) 64

/-- `DQMF[qp][0..63]`, the DequantMatrix (R37). -/
def dqmfRow (s : State) (qp : Nat) : Option (List Mult) := s.dqmf.readRow (dqmfAddr qp 0) 64

/-- `BLK[ch][i] <- vs[i]` for every position, in place (40_quant.md R137, 41_dequant.md R167). -/
def storeBlk (s : State) (ch : Nat) (vs : List Coef) : State :=
  { s with blk := s.blk.writeRow (blkAddr ch 0) vs }

end Sys2Proof.Machine
end

