-- ==== Sys2Proof/Machine/Capability.lean ====
section
/-! DEFINITION. The capability dispatcher family: the command `DISPATCH` (42_dispatch.md R180 to R187). -/

namespace Sys2Proof.Machine

/-- Entry `e` matches the feature mask `feat` when every bit of its gate is set in it (R180). -/
def entryMatches (feat : Word) (e : CatEntry) : Bool :=
  decide (BitVec.ofNat 32 e.gate &&& feat = BitVec.ofNat 32 e.gate)

/-- `sel(cat, feat)` (R180): the `id` of the last matching entry, if an entry matches. -/
def sel (cat : List CatEntry) (feat : Word) : Option VariantId :=
  ((cat.filter (entryMatches feat)).getLast?).map fun e => BitVec.ofNat 8 e.id

/-- The quantizer binding (R182). The baseline matches every mask, so the default is never used (assumption log 16). -/
def boundQuant (c : Config) (feat : Word) : VariantId :=
  (sel c.catQ feat).getD (baselineId c.catQ)

/-- The generic dequantizer binding `d` (R183). -/
def genericDequant (c : Config) (feat : Word) : VariantId :=
  (sel c.catDq feat).getD (baselineId c.catDq)

/-- The dequantizer binding with the flat override (R184). -/
def boundDequant (c : Config) (feat : Word) (preset : Preset) : VariantId :=
  match preset, sel c.catDqFlat feat with
  | .flat, some v => v
  | _, _ => genericDequant c feat

/-- `Dispatch()` (R181). -/
def runDispatch (s : State) : State :=
  { s with
    qsel := boundQuant s.cfg.val s.cpufeat
    dqsel := boundDequant s.cfg.val s.cpufeat s.cqm
    phase := .ready }

/-- `DISPATCH` (R181): in CONFIG it runs, in READY it raises `BADPHASE` (step 4 of 30_encoding.md R104), in FAULT the
write that carries it is ignored (60_exceptions.md R219). -/
def execDispatch (s : State) : Host.Outcome State Fault Refusal :=
  match s.phase with
  | .fault => .next s
  | .ready => .next (raiseCommand .badPhase .dispatch s)
  | .config => .next (runDispatch s)

end Sys2Proof.Machine
end

