-- ==== Sys2Proof/Machine/Flags.lean ====
section
/-! DEFINITION. The block's one flag computation, the non-zero flag of the quantizer (40_quant.md R138). -/

namespace Sys2Proof.Machine

/-- The value of `NZ[ch]` after a `QUANT` that produced `levels`: whether their bitwise OR as two's-complement words, from
an accumulator that starts at 0, is non-zero (R138). -/
def nzFlag (levels : List Coef) : Bool := decide (levels.foldl (fun acc level => acc ||| level) 0 ≠ 0)

end Sys2Proof.Machine
end

