-- ==== Sys2Proof/Machine/Dequant.lean ====
section
/-! DEFINITION. The inverse quantizer family: the command `DEQUANT` (41_dequant.md R160 to R171). -/

namespace Sys2Proof.Machine

/-- `Dval(l, g, s)` (R162): rounding constant `2^(s-1)`, floor shift. -/
def dval (l g : Int) (s : Nat) : Int :=
  let r := 2 ^ (s - 1)
  shr (l * g + r) s

/-- `out[0..63]` of R161 as the words written back: the clamp acts after the shift (R164, C4). -/
def dequantValues (sh : Nat) (ls : List Coef) (gs : List Mult) : List Coef :=
  List.zipWith (fun l g => BitVec.ofInt 16 (clamp16 (dval l.toInt g.toNat sh))) ls gs

/-- `Dequant(ch, qp)` (R161), after the checks; `NZ[ch]` is kept (R168). A cell of its row that is unwritten stops the model
(10_state.md R43; assumption log 5); an unwritten register of the block is reported as `M_UNINIT` (R43; assumption log 21). -/
def runDequant (ch qp : Nat) (s : State) : Host.Outcome State Fault Refusal :=
  match dqmfRow s qp with
  | some gs =>
    .next ((storeBlk s ch (dequantValues (s.shtab qp) (blkRow s ch) gs)).reportUninit (s.blkUnwritten ch))
  | none => .fault .mUninit

/-- `DEQUANT ch, qp` (R161): the checks of 30_encoding.md R104, then the dequantizer. -/
def execDequant (ch qp : Nat) (s : State) : Host.Outcome State Fault Refusal :=
  checkBlockCommand (.dequant ch qp) ch qp s (runDequant ch qp)

end Sys2Proof.Machine
end

