-- ==== Sys2Proof/Machine/Quant.lean ====
section
/-! DEFINITION. The forward quantizer family: the command `QUANT` (40_quant.md R130 to R146). -/

namespace Sys2Proof.Machine

/-- `Qmag(a, mf, f, q)` (R132), with `p`, `t`, `u`, `m` as the rule names them. -/
def qmag (a mf f q : Int) : Int :=
  let p := a * mf + 2 ^ 18
  let t := shr p 19
  let u := f + t * q
  shr u 15

/-- `Level(c, mf, f, q)` (R133): the magnitude, then the sign; `-c` is taken in the integers (R141). -/
def level (c mf f q : Int) : Int :=
  if 0 < c then qmag c mf f q else -(qmag (-c) mf f q)

/-- `Pacc(c, mf)` for an accumulator of `accw` bits (R135). -/
def pacc (accw : Nat) (c mf : Int) : Bool :=
  decide ((c.natAbs : Int) * mf + 2 ^ 18 ≤ 2 ^ (accw - 1) - 1)

/-- The precondition of R131: `Pacc` for every position. -/
def paccRow (accw : Nat) (cs : List Coef) (ms : List Mult) : Bool :=
  (cs.zip ms).all fun cm => pacc accw cm.1.toInt cm.2.toNat

/-- `lvl[0..63]` of R131 as the words written back (R137). -/
def quantLevels (q : Nat) (cs : List Coef) (ms : List Mult) (fs : List Bias) : List Coef :=
  List.zipWith (fun c mf => BitVec.ofInt 16 (level c.toInt mf.1.toNat mf.2.toNat q)) cs (ms.zip fs)

/-- `Quant(ch, qp)` (R131), after the checks. A cell of its rows that is unwritten stops the model first
(10_state.md R43; assumption log 5), then a position without `Pacc` (R135). The use of an unwritten register of the block is
`M_UNINIT` in both outcomes (R43): reported in the next state (assumption log 21), and the stop's name in place of `M_QOVF` when
a position is without `Pacc` (assumption log 6). -/
def runQuant (ch qp : Nat) (s : State) : Host.Outcome State Fault Refusal :=
  match mfRow s qp, biasRow s qp with
  | some ms, some fs =>
    if paccRow s.accw (blkRow s ch) ms then
      let levels := quantLevels (s.qtab qp) (blkRow s ch) ms fs
      .next (((storeBlk s ch levels).setNz ch (nzFlag levels)).reportUninit (s.blkUnwritten ch))
    else .fault (bif s.blkUnwritten ch then .mUninit else .mQovf)
  | _, _ => .fault .mUninit

/-- `QUANT ch, qp` (R131): the checks of 30_encoding.md R104, then the quantizer. -/
def execQuant (ch qp : Nat) (s : State) : Host.Outcome State Fault Refusal :=
  checkBlockCommand (.quant ch qp) ch qp s (runQuant ch qp)

end Sys2Proof.Machine
end

