-- ==== Sys2Proof/Machine/Dispatch.lean ====
section
/-! DEFINITION. One arm per command: step 8 of 30_encoding.md R104. -/

namespace Sys2Proof.Machine

def exec (i : Instr) (s : State) : Host.Outcome State Fault Refusal :=
  match i with
  | .dispatch => Sys2Proof.Machine.execDispatch s
  | .quant ch qp => Sys2Proof.Machine.execQuant ch qp s
  | .dequant ch qp => Sys2Proof.Machine.execDequant ch qp s

end Sys2Proof.Machine
end

