-- ==== Sys2Proof/Machine/Port.lean ====
section
/-! DEFINITION. The host port: the two transactions, the write to `CMD`, and serving one host operation (20_memory.md R60 to R74; 30_encoding.md R104). -/

namespace Sys2Proof.Machine

/-- `Execute(d)` (30_encoding.md R104): an illegal word raises `BADCMD` (steps 1 to 3), a command goes to its meaning
(steps 4 to 8). -/
def execute (d : Word) (s : State) : Host.Outcome State Fault Refusal :=
  match decode d with
  | .error _ => .next (raiseFault .badCmd cmdAddr d true s)
  | .ok i => exec i s

/-- `HostRead(a)` (R62): served in every phase; an unmapped address returns 0, and in CONFIG or READY raises `BADADDR`. An
unwritten table cell stops the model with `M_UNINIT` (10_state.md R43; in FAULT phase too, assumption log 5 and 20); the
use of an unwritten register is reported as `M_UNINIT` (R43; assumption log 21). -/
def hostRead (a : Addr) (s : State) : Host.Outcome State Fault Refusal :=
  match access (location s.nch a) with
  | .reserved =>
    if s.phase = .fault then .next (s.answer 0)
    else .next ((raiseFault .badAddr a 0 false s).answer 0)
  | _ =>
    match readLocation s (location s.nch a) with
    | some v => .next ((s.reportUninit (readsUnwritten s (location s.nch a))).answer v)
    | none => .fault .mUninit

/-- A write to a writable location: `RANGE` unless the data is legal, else the cell is stored (R63). -/
def writeChecked (a : Addr) (d : Word) (s : State) : State :=
  if legal (location s.nch a) d then storeLocation (location s.nch a) d s
  else raiseFault .range a d true s

/-- `HostWrite(a, d)` (R63), the checks in the order of 60_exceptions.md R214; ignored in FAULT phase (R219). -/
def hostWrite (a : Addr) (d : Word) (s : State) : Host.Outcome State Fault Refusal :=
  if s.phase = .fault then .next s
  else
    match access (location s.nch a) with
    | .reserved => .next (raiseFault .badAddr a d true s)
    | .readOnly => .next (raiseFault .roWrite a d true s)
    | .configOnly =>
      if s.phase = .ready then .next (raiseFault .frozen a d true s) else .next (writeChecked a d s)
    | .readWrite => .next (writeChecked a d s)
    | .writeOnly => execute d s

/-- One host operation. -/
def hostOp (op : HostOp) (s : State) : Host.Outcome State Fault Refusal :=
  match op with
  | .read a => hostRead a s
  | .write a d => hostWrite a d s
  | .reset => .next (resetBlock s)

/-- One step of the machine (00_scope.md R5): the host's next operation takes full effect (R70, R73). When the host has
nothing to do the block is idle and nothing changes (60_exceptions.md R221; assumption log 4). -/
def serveHost (s : State) : Host.Outcome State Fault Refusal :=
  match s.pending with
  | [] => .next s
  | op :: rest => hostOp op { s with pending := rest }

/-- The host's next operation becomes the write to `CMD` of the word whose low `nbits` bits are `w`'s (assumption log 11). -/
def placeCommand (s : State) (nbits w : Nat) : State :=
  { s with pending := .write cmdAddr (BitVec.ofNat 32 (w % 2 ^ nbits)) :: s.pending }

end Sys2Proof.Machine
end

