-- ==== Sys2Proof/Machine/Step.lean ====
section
/-! DEFINITION. The step function (00_scope.md R5) and the placing of a command where the next step takes it. -/

namespace Sys2Proof.Machine

/-- One step: one host transaction or reset event, or nothing when the host has none. -/
def step (s : State) : Host.Outcome State Fault Refusal := serveHost s

/-- `s` with the command word placed where the next step takes it: at the head of the host's operations, as a write to
`CMD` (10_state.md R34). Nothing else changes. -/
def State.withFetchWord (s : State) (nbits w : Nat) : State := placeCommand s nbits w

end Sys2Proof.Machine
end

