-- ==== Sys2Proof/Machine/Bridge.lean ====
section
/-! DEFINITION. The byte order and alignment an integrator's bridge from a byte-addressed bus must keep (20_memory.md R67, R68; 93_implementation_defined.md U9). The bridge is outside the block: it only makes host operations. -/

namespace Sys2Proof.Machine

/-- An access on a byte-addressed bus: a load of `size` bytes, or a store of bytes, lowest address first. -/
inductive BusAccess where
  | load (byteAddr size : Nat)
  | store (byteAddr : Nat) (bytes : List (BitVec 8))
  deriving DecidableEq, Repr

/-- The word whose bits 7:0 are the byte at the lowest address (little-endian, R67). -/
def wordOfBytes (b0 b1 b2 b3 : BitVec 8) : Word := b3 ++ b2 ++ b1 ++ b0

/-- The bytes of a word, lowest address first (little-endian, R67). -/
def bytesOfWord (w : Word) : List (BitVec 8) :=
  [w.extractLsb' 0 8, w.extractLsb' 8 8, w.extractLsb' 16 8, w.extractLsb' 24 8]

/-- The word address of a byte address, for a block whose 64 Ki-word window begins at byte address `base` (R67, R78):
byte address = base + 4 × word address. Nothing for an address outside the window, nor for one that is not a multiple of 4
on the bus: natural alignment (R68) is judged on the bus address itself. The spec does not say that the window begins at a
multiple of 4; a window that does not is given no aligned access (DESIGN CHOICE, assumption log 13). -/
def busWordAddr (base byteAddr : Nat) : Option Addr :=
  if base ≤ byteAddr ∧ byteAddr % 4 = 0 ∧ (byteAddr - base) % 4 = 0 ∧ (byteAddr - base) / 4 < 65536 then
    some (BitVec.ofNat 16 ((byteAddr - base) / 4))
  else none

/-- The host operation the bridge forwards: aligned 32-bit accesses only; anything else never reaches the block (R68, U9). -/
def bridge (base : Nat) (access : BusAccess) : Option HostOp :=
  match access with
  | .load a size => if size = 4 then (busWordAddr base a).map HostOp.read else none
  | .store a [b0, b1, b2, b3] => (busWordAddr base a).map fun w => HostOp.write w (wordOfBytes b0 b1 b2 b3)
  | .store _ _ => none

end Sys2Proof.Machine
end

