-- ==== Sys2Proof/Machine/HostProgram.lean ====
section
/-! DEFINITION. Host programs: the lines of 30_encoding.md R108 and the pseudo-instructions of R109 as the host operations they stand for. -/

namespace Sys2Proof.Machine

/-- One line of a host program (R108, R109). Data are integers: a negative number stands for its 32-bit two's complement. The
fields are wider than the syntax: R108 gives a line outside its ranges no meaning (`expandLine`; assumption log 23). -/
inductive Line where
  /-- `WR a, d`. -/
  | wr (a : Addr) (d : Int)
  /-- `RD a`. -/
  | rd (a : Addr)
  /-- A command: `DISPATCH`, `QUANT ch, qp` or `DEQUANT ch, qp`. -/
  | command (i : Instr)
  /-- `RESET`. -/
  | reset
  /-- `LDBLK ch, v0, ..., v63`. -/
  | ldblk (ch : Nat) (vs : List Int)
  /-- `FILLBLK ch, v`. -/
  | fillblk (ch : Nat) (v : Int)
  /-- `FILLMF qp, v`. -/
  | fillmf (qp : Nat) (v : Int)
  /-- `FILLBIAS qp, v`. -/
  | fillbias (qp : Nat) (v : Int)
  /-- `FILLDQMF qp, v`. -/
  | filldqmf (qp : Nat) (v : Int)
  /-- `FILLALL m, b, g`. -/
  | fillall (m b g : Int)
  /-- `STBLK ch`. -/
  | stblk (ch : Nat)
  deriving DecidableEq, Repr

/-- `WR` of consecutive words from a word address on, in increasing order. -/
def writesFrom (a : Nat) : List Int → List HostOp
  | [] => []
  | v :: vs => .write (BitVec.ofNat 16 a) (BitVec.ofInt 32 v) :: writesFrom (a + 1) vs

/-- 64 times the same value. -/
def fillFrom (a : Nat) (v : Int) : List HostOp := writesFrom a (List.replicate 64 v)

/-- `FILLALL` for one QP: `FILLMF`, `FILLBIAS`, `FILLDQMF` (R109; assumption log 14). -/
def fillRows (m b g : Int) (qp : Nat) : List HostOp :=
  fillFrom (mfAddr qp 0) m ++ fillFrom (biasAddr qp 0) b ++ fillFrom (dqmfAddr qp 0) g

/-- The host operations a line stands for. DESIGN CHOICE (assumption log 23): a line outside the ranges of R108 and R109, to which
the spec gives no meaning, is expanded by the same formulas: addresses are cut to 16 bits, data and command words to 32, a row
or a block begins at the address its formula gives, and an `LDBLK` writes as many values as it lists. -/
def expandLine : Line → List HostOp
  | .wr a d => [.write a (BitVec.ofInt 32 d)]
  | .rd a => [.read a]
  | .command i => [.write cmdAddr (encode i)]
  | .reset => [.reset]
  | .ldblk ch vs => writesFrom (blkAddr ch 0) vs
  | .fillblk ch v => fillFrom (blkAddr ch 0) v
  | .fillmf qp v => fillFrom (mfAddr qp 0) v
  | .fillbias qp v => fillFrom (biasAddr qp 0) v
  | .filldqmf qp v => fillFrom (dqmfAddr qp 0) v
  | .fillall m b g => (List.range 64).flatMap (fillRows m b g)
  | .stblk ch => (List.range 64).map fun i => .read (BitVec.ofNat 16 (blkAddr ch i))

/-- A host program's operations, in order. -/
def expandProgram (lines : List Line) : List HostOp := lines.flatMap expandLine

/-- Give the host a program to issue after what it already has to do (70_reset_and_hazards.md R245; assumption log 11). -/
def State.loadProgram (s : State) (lines : List Line) : State :=
  { s with pending := s.pending ++ expandProgram lines }

end Sys2Proof.Machine
end

