-- ==== Sys2Proof/Safety.lean ====
section
/-! DEFINITION. What a legal state and a good run are: the invariant of the machine and the good final state (10_state.md R27, R28, R29, R32 to R37; 42_dispatch.md R185; 70_reset_and_hazards.md R245). -/

namespace Sys2Proof.Machine

/-- The four memories keep their canonical form. -/
def State.memoriesCanonical (s : State) : Bool := s.mf.wf && s.bias.wf && s.dqmf.wf && s.blk.wf

/-- Every written cell is a cell of the address map, and an `MF` cell is positive (R35; 20_memory.md R61). -/
def State.cellsMapped (s : State) : Bool :=
  s.mf.all (fun kv => decide (0x1000 ≤ kv.1 ∧ kv.1 < 0x2000 ∧ kv.2 ≠ 0))
  && s.bias.all (fun kv => decide (0x2000 ≤ kv.1 ∧ kv.1 < 0x3000))
  && s.dqmf.all (fun kv => decide (0x3000 ≤ kv.1 ∧ kv.1 < 0x4000))
  && s.blk.all (fun kv => decide (0x4000 ≤ kv.1 ∧ kv.1 < 0x4000 + 0x100 * s.nch ∧ kv.1 % 0x100 < 64))

/-- The fault registers agree with the phase and with each other (R27, R28, R29; 60_exceptions.md R201): `PHASE` is FAULT
exactly when there is a code; no code, nothing recorded; only an unmapped read records a read, with no data; a command
fault records the address of `CMD`. -/
def State.faultRegistersAgree (s : State) : Bool :=
  decide ((s.phase = .fault) ↔ (s.fcode ≠ .none))
  && decide (s.fcode = .none → s.faddr = 0 ∧ s.fdata = 0 ∧ s.fwe = false)
  && decide (s.fwe = false → s.fdata = 0 ∧ (s.fcode = .none ∨ s.fcode = .badAddr))
  && decide (s.fcode = .badCmd ∨ s.fcode = .badCh ∨ s.fcode = .qpRange ∨ s.fcode = .badPhase → s.faddr = cmdAddr)

/-- `QSEL` and `DQSEL` hold the baselines of R42. -/
def State.unbound (s : State) : Bool :=
  decide (s.qsel = baselineId s.cfg.val.catQ ∧ s.dqsel = baselineId s.cfg.val.catDq)

/-- `QSEL` and `DQSEL` hold what `DISPATCH` binds for the registers as they stand (R182 to R184). -/
def State.bound (s : State) : Bool :=
  decide (s.qsel = boundQuant s.cfg.val s.cpufeat ∧ s.dqsel = boundDequant s.cfg.val s.cpufeat s.cqm)

/-- The Implementation Handle is unbound before `DISPATCH` and bound and frozen after it (R185). -/
def State.handleAgrees (s : State) : Bool :=
  match s.phase with
  | .config => s.unbound
  | .ready => s.bound
  | .fault => s.unbound || s.bound

/-- Channels that do not exist have no flag set. -/
def State.absentChannelsClear (s : State) : Bool :=
  (List.range 16).all fun ch => decide (s.nch ≤ ch → s.nzOf ch = false)

/-- The invariant of the machine: it holds after reset and every step keeps it. -/
def State.inv (s : State) : Bool :=
  s.memoriesCanonical && s.cellsMapped && s.faultRegistersAgree && s.handleAgrees && s.absentChannelsClear

/-- An accepted `QUANT` or `DEQUANT` of channel `ch` that uses an unwritten register. -/
def State.commandUsesUnwritten (s : State) (ch qp : Nat) : Bool :=
  decide (s.phase = .ready ∧ ch < s.nch ∧ qp < 64) && s.blkUnwritten ch

/-- The host's next operation uses a `BLK` register that nothing has written since reset: the host contract violation (2) of
60_exceptions.md R202, for which the step raises `M_UNINIT` in `modelFault` (10_state.md R43; assumption log 21). -/
def State.usesUnwritten (s : State) : Bool :=
  match s.pending with
  | [] => false
  | .reset :: _ => false
  | .read a :: _ => readsUnwritten s (location s.nch a)
  | .write a d :: _ =>
    match decode d with
    | .ok (.quant ch qp) => decide (a = cmdAddr) && s.commandUsesUnwritten ch qp
    | .ok (.dequant ch qp) => decide (a = cmdAddr) && s.commandUsesUnwritten ch qp
    | _ => false

/-- The step of a model that refuses a meaning to every use of an unwritten cell, as 10_state.md R43, 60_exceptions.md R202, D40
and U2 describe one: it stops with `M_UNINIT` for an unwritten register too, and is `step` everywhere else (`step` itself stops
for an unwritten table cell, and goes on from an unwritten register as the hardware does: assumption log 21). -/
def strictStep (s : State) : Host.Outcome State Fault Refusal :=
  bif s.usesUnwritten then .fault .mUninit else step s

/-- A good final state of a run (R245): the host has nothing left to do, `PHASE` is not FAULT, and no step of the run raised a
model-level fault. It is the final phase that is judged, not whether a fault was raised earlier (DESIGN CHOICE, assumption
log 22). -/
def State.goodFinal (s : State) : Bool := decide (s.pending = [] ∧ s.phase ≠ .fault ∧ s.modelFault = none)

/-- A run of `k` steps that ends in a good final state; a model-level fault on the way makes it no good run (R245), and the use
of an unwritten cell is one (R43: `strictStep`). DESIGN CHOICE (assumption log 22): a run that raised an
architectural fault and was then reset is good when its final state is; R245 judges the final `PHASE`, while D39 says "good
only if no fault". -/
def goodRun : Nat → State → Bool
  | 0, s => s.goodFinal
  | k + 1, s =>
    match strictStep s with
    | .next t => goodRun k t
    | .fault _ => false
    | .refused _ => false

end Sys2Proof.Machine
end

