-- ==== Sys2Proof/Certificates/Slice0/Obligations.lean ====
section
/-! DEFINITION. The statements for the provers, in the order of OBLIGATIONS.json, after the few names they share. -/

namespace Sys2Proof.Claims

open Sys2Proof.Machine

/-- An outcome of the machine. -/
abbrev Result := Host.Outcome State Fault Refusal

/-- The state after fault entry: the five writes of R203 and nothing else. -/
abbrev faulted (s : State) (code : FaultCode) (a : Addr) (d : Word) (isWrite : Bool) : State :=
  { s with fcode := code, faddr := a, fdata := d, fwe := isWrite, phase := .fault }

/-- The state after a host read that returns `v`. -/
abbrev answered (s : State) (v : Word) : State := { s with results := s.results ++ [v] }

/-- `s` after the use of a `BLK` register that reads `cell`: with `M_UNINIT` raised in `modelFault` where the register is
unwritten (R43, R202; assumption log 21), and `s` itself where it is written. -/
abbrev reported (s : State) (cell : Option Coef) : State :=
  { s with modelFault := match cell with
      | none => some .mUninit
      | some _ => s.modelFault }

/-- The word addresses R205 calls unmapped, for `nch` channels. -/
abbrev unmappedAddr (nch n : Nat) : Prop :=
  n = 0x0007 ∨ (0x0009 ≤ n ∧ n ≤ 0x00FF) ∨ (0x0180 ≤ n ∧ n ≤ 0x0FFF)
    ∨ (0x4000 ≤ n ∧ n < 0x4000 + 0x100 * nch ∧ 0x41 ≤ n % 0x100)
    ∨ (0x4000 + 0x100 * nch ≤ n ∧ n ≤ 0xFFFF)

/-- The word addresses of the read-only locations (R61, R206): STATUS, FADDR, FDATA, QSEL, DQSEL, QTAB, SHTAB, NZ. -/
abbrev readOnlyAddr (nch n : Nat) : Prop :=
  n = 0 ∨ n = 1 ∨ n = 2 ∨ n = 5 ∨ n = 6 ∨ (0x0100 ≤ n ∧ n ≤ 0x017F)
    ∨ (0x4000 ≤ n ∧ n < 0x4000 + 0x100 * nch ∧ n % 0x100 = 0x40)

/-- The word addresses of CPUFEAT, CQM, MF, BIAS and DQMF (R61). -/
abbrev configOnlyAddr (n : Nat) : Prop := n = 3 ∨ n = 4 ∨ (0x1000 ≤ n ∧ n ≤ 0x3FFF)

/-- The word addresses of the BLK registers (R61). -/
abbrev blkRegAddr (nch n : Nat) : Prop := 0x4000 ≤ n ∧ n < 0x4000 + 0x100 * nch ∧ n % 0x100 ≤ 0x3F

/-- The data R65 calls legal at a writable word address, as unsigned numbers. -/
abbrev legalData (n d : Nat) : Prop :=
  n = 3 ∨ (n = 4 ∧ d ≤ 1) ∨ (0x1000 ≤ n ∧ n ≤ 0x1FFF ∧ 1 ≤ d ∧ d ≤ 65535) ∨ (0x2000 ≤ n ∧ n ≤ 0x2FFF ∧ d ≤ 32767)
    ∨ (0x3000 ≤ n ∧ n ≤ 0x3FFF ∧ d ≤ 65535) ∨ (0x4000 ≤ n ∧ (d ≤ 0x00007FFF ∨ 0xFFFF8000 ≤ d))

/-- The number of a phase (R26). -/
def phaseNumber : Phase → Nat
  | .config => 0
  | .ready => 1
  | .fault => 2

/-- The number of a fault code (R201). -/
def codeNumber : FaultCode → Nat
  | .none => 0
  | .badAddr => 1
  | .roWrite => 2
  | .frozen => 3
  | .range => 4
  | .badCmd => 5
  | .badCh => 6
  | .qpRange => 7
  | .badPhase => 8

/-- `e` matches `feat`: `(e.gate & feat) = e.gate` (R180). -/
abbrev gateHeld (feat : Word) (e : CatEntry) : Prop := BitVec.ofNat 32 e.gate &&& feat = BitVec.ofNat 32 e.gate

/-- `id` is the identifier of the last entry of `cat` that matches `feat` (R180). -/
def IsLastMatch (cat : List CatEntry) (feat : Word) (id : VariantId) : Prop :=
  ∃ before e after, cat = before ++ e :: after ∧ gateHeld feat e ∧ (∀ x ∈ after, ¬ gateHeld feat x)
    ∧ id = BitVec.ofNat 8 e.id

/-- The level R132 and R133 give a coefficient, with the powers of two written out. -/
def ruleLevel (c mf f q : Int) : Int :=
  if 0 < c then (f + ((c * mf + 262144) / 524288) * q) / 32768
  else -((f + ((-c * mf + 262144) / 524288) * q) / 32768)

/-- The value R162 and R164 give a level. -/
def ruleValue (l g : Int) (sh : Nat) : Int :=
  let v := (l * g + 2 ^ (sh - 1)) / 2 ^ sh
  if v < -32768 then -32768 else if 32767 < v then 32767 else v

/-- `Pacc` of R135 for a coefficient and a multiplier. -/
abbrev rulePacc (accw : Nat) (c mf : Int) : Prop := |c| * mf + 2 ^ 18 ≤ 2 ^ (accw - 1) - 1

/-- The 64 registers of channel `ch` hold `c 0` to `c 63`; one that nothing has written holds its free value, which is the
model's choice (assumption log 21, DESIGN CHOICE). -/
abbrev blkHolds (s : State) (ch : Nat) (c : Nat → Coef) : Prop := ∀ i < 64, s.blkAt (blkAddr ch i) = c i

/-- The row `MF[qp]` holds `m 0` to `m 63`. -/
abbrev mfHolds (s : State) (qp : Nat) (m : Nat → Mult) : Prop := ∀ i < 64, s.mf.read (mfAddr qp i) = some (m i)

/-- The row `BIAS[qp]` holds `f 0` to `f 63`. -/
abbrev biasHolds (s : State) (qp : Nat) (f : Nat → Bias) : Prop := ∀ i < 64, s.bias.read (biasAddr qp i) = some (f i)

/-- The row `DQMF[qp]` holds `g 0` to `g 63`. -/
abbrev dqmfHolds (s : State) (qp : Nat) (g : Nat → Mult) : Prop := ∀ i < 64, s.dqmf.read (dqmfAddr qp i) = some (g i)

/-- What the checks of R104 leave a QUANT or DEQUANT: READY phase, a channel that exists, a QP in range. -/
abbrev accepted (s : State) (ch qp : Nat) : Prop := s.phase = .ready ∧ ch < s.nch ∧ qp < 64

/-- Apply a change of state to the next state of an outcome. -/
def mapNext (change : State → State) : Result → Result
  | .next t => .next (change t)
  | .fault r => .fault r
  | .refused r => .refused r

end Sys2Proof.Claims

open Sys2Proof Sys2Proof.Machine Sys2Proof.Claims Host

/-! ## Encoding -/

/-- R110: the encoding formulas, decoding an encoded command gives it back, encoding a decoded word gives the word back,
decoding is injective on legal words, and the worked examples, `QUANT 1, 64` raising `QPRANGE` among them. -/
def Obligations.EncodeAndDecodeAgree : Prop :=
  encode .dispatch = 0x10000000#32
  ∧ (∀ ch < 16, ∀ qp < 256,
      encode (.quant ch qp) = 0x20000000#32 ||| (BitVec.ofNat 32 ch <<< 24) ||| BitVec.ofNat 32 qp
      ∧ encode (.dequant ch qp) = 0x30000000#32 ||| (BitVec.ofNat 32 ch <<< 24) ||| BitVec.ofNat 32 qp)
  ∧ (∀ i : Instr, i.wf = true → decode (encode i) = .ok i)
  ∧ (∀ (d : Word) (i : Instr), decode d = .ok i → i.wf = true ∧ encode i = d)
  ∧ (∀ (d d' : Word) (i : Instr), decode d = .ok i → decode d' = .ok i → d = d')
  ∧ encode (.quant 0 8) = 0x20000008#32 ∧ encode (.dequant 3 63) = 0x3300003F#32 ∧ encode (.quant 1 64) = 0x21000040#32
  ∧ (∀ i, decode 0x20000108#32 ≠ .ok i) ∧ (∀ i, decode 0x10000001#32 ≠ .ok i) ∧ (∀ i, decode 0x00000000#32 ≠ .ok i)
  ∧ (∀ s : State, s.phase = .ready → 1 < s.nch →
      hostWrite 0x0008#16 0x21000040#32 s = .next (faulted s .qpRange 0x0008#16 0x21000040#32 true))

/-- R103: a word decodes to a command exactly when it selects that command's row of the opcode map by `match` and `mask`,
and a word that selects no row decodes to none. -/
def Obligations.DecodeFollowsTheOpcodeMap : Prop :=
  ∀ d : Word,
    (decode d = .ok .dispatch ↔ d &&& 0xFFFFFFFF#32 = 0x10000000#32)
    ∧ ((∃ ch qp, decode d = .ok (.quant ch qp)) ↔ d &&& 0xF0FFFF00#32 = 0x20000000#32)
    ∧ ((∃ ch qp, decode d = .ok (.dequant ch qp)) ↔ d &&& 0xF0FFFF00#32 = 0x30000000#32)
    ∧ (∀ ch qp, decode d = .ok (.quant ch qp) ∨ decode d = .ok (.dequant ch qp) →
        ch = d.toNat / 2 ^ 24 % 16 ∧ qp = d.toNat % 256)
    ∧ (d &&& 0xFFFFFFFF#32 ≠ 0x10000000#32 → d &&& 0xF0FFFF00#32 ≠ 0x20000000#32 →
        d &&& 0xF0FFFF00#32 ≠ 0x30000000#32 → ∃ e, decode d = .error e)

/-- The words of 95_test_vectors.md V5 decode as that table says (tier 1, fixed words). -/
def Obligations.ExampleWordsDecode : Prop :=
  decode 0x10000000#32 = .ok .dispatch ∧ decode 0x20000008#32 = .ok (.quant 0 8)
  ∧ decode 0x3100003F#32 = .ok (.dequant 1 63) ∧ decode 0x230000FF#32 = .ok (.quant 3 255)
  ∧ decode 0x2F00003F#32 = .ok (.quant 15 63) ∧ decode 0x20000108#32 = .error .nonzeroZeroField
  ∧ decode 0x20800008#32 = .error .nonzeroZeroField ∧ decode 0x10000001#32 = .error .dispatchOperand
  ∧ decode 0x11000000#32 = .error .dispatchOperand ∧ decode 0x00000000#32 = .error .reservedOp
  ∧ decode 0xFFFFFFFF#32 = .error .reservedOp ∧ decode 0x40000000#32 = .error .reservedOp

/-! ## The step and the host port -/

/-- A step at a state whose next host operation writes a command's word to `CMD` is that command's meaning, on the state
without that operation. -/
def Obligations.StepRunsTheDecodedCommand : Prop :=
  ∀ (s : State) (d : Word) (rest : List HostOp) (i : Instr),
    s.pending = .write 0x0008#16 d :: rest → decode d = .ok i → step s = exec i { s with pending := rest }

/-- R70: the host's operations take effect one at a time, in the host's order, each by its own transaction; with none
left nothing changes (assumption log 4). -/
def Obligations.StepServesTheHostInOrder : Prop :=
  ∀ s : State,
    (s.pending = [] → step s = .next s)
    ∧ (∀ a rest, s.pending = .read a :: rest → step s = hostRead a { s with pending := rest })
    ∧ (∀ a d rest, s.pending = .write a d :: rest → step s = hostWrite a d { s with pending := rest })
    ∧ (∀ t, step s = .next t → t.pending = s.pending.tail)

/-- R104: what a write to `CMD` does, the checks in order; the word is spelled out as the rule does. -/
def Obligations.ExecuteChecksInOrder : Prop :=
  ∀ (s : State) (d : Word),
    let op := d.toNat / 2 ^ 28
    let ch := d.toNat / 2 ^ 24 % 2 ^ 4
    let z := d.toNat / 2 ^ 8 % 2 ^ 16
    let qp := d.toNat % 2 ^ 8
    let raised := fun code => (Outcome.next (faulted s code 0x0008#16 d true) : Result)
    (s.phase = .fault → hostWrite 0x0008#16 d s = .next s)
    ∧ (s.phase ≠ .fault → hostWrite 0x0008#16 d s =
        if op ≠ 1 ∧ op ≠ 2 ∧ op ≠ 3 then raised .badCmd
        else if z ≠ 0 then raised .badCmd
        else if op = 1 ∧ (ch ≠ 0 ∨ qp ≠ 0) then raised .badCmd
        else if op = 1 ∧ s.phase = .ready then raised .badPhase
        else if (op = 2 ∨ op = 3) ∧ s.phase = .config then raised .badPhase
        else if (op = 2 ∨ op = 3) ∧ s.nch ≤ ch then raised .badCh
        else if (op = 2 ∨ op = 3) ∧ 64 ≤ qp then raised .qpRange
        else if op = 1 then exec .dispatch s
        else if op = 2 then exec (.quant ch qp) s
        else exec (.dequant ch qp) s)

/-- R105: the illegal words all raise `BADCMD`; a QUANT or DEQUANT word with `qp` 64 to 255 or a channel that does not
exist is well-formed, and raises `QPRANGE` or `BADCH` in READY. -/
def Obligations.IllegalWordsRaiseBadCmd : Prop :=
  (∀ (s : State) (d : Word), s.phase ≠ .fault →
    (d.toNat / 2 ^ 28 = 0 ∨ 4 ≤ d.toNat / 2 ^ 28 ∨ d.toNat / 2 ^ 8 % 2 ^ 16 ≠ 0
      ∨ (d.toNat / 2 ^ 28 = 1 ∧ d.toNat % 2 ^ 28 ≠ 0)) →
    hostWrite 0x0008#16 d s = .next (faulted s .badCmd 0x0008#16 d true))
  ∧ (∀ ch qp, ch < 16 → qp < 256 → decode (encode (.quant ch qp)) = .ok (.quant ch qp)
      ∧ decode (encode (.dequant ch qp)) = .ok (.dequant ch qp))
  ∧ (∀ (s : State) (ch qp : Nat) (i : Instr), s.phase = .ready → ch < 16 → qp < 256 →
      i = .quant ch qp ∨ i = .dequant ch qp →
      (s.nch ≤ ch → hostWrite 0x0008#16 (encode i) s = .next (faulted s .badCh 0x0008#16 (encode i) true))
      ∧ (ch < s.nch → 64 ≤ qp → hostWrite 0x0008#16 (encode i) s = .next (faulted s .qpRange 0x0008#16 (encode i) true)))

/-- R62 for the registers of `0x0000` to `0x0008`: the value each read returns, `STATUS` laid out as R27 says, in every
phase; nothing else changes. -/
def Obligations.ReadsOfGlobalRegisters : Prop :=
  ∀ s : State,
    hostRead 0x0000#16 s = .next (answered s
      (BitVec.ofNat 32 (phaseNumber s.phase + 16 * codeNumber s.fcode + 256 * s.fwe.toNat)))
    ∧ hostRead 0x0001#16 s = .next (answered s (BitVec.ofNat 32 s.faddr.toNat))
    ∧ hostRead 0x0002#16 s = .next (answered s s.fdata)
    ∧ hostRead 0x0003#16 s = .next (answered s s.cpufeat)
    ∧ hostRead 0x0004#16 s = .next (answered s (if s.cqm = .flat then 0 else 1))
    ∧ hostRead 0x0005#16 s = .next (answered s (BitVec.ofNat 32 s.qsel.toNat))
    ∧ hostRead 0x0006#16 s = .next (answered s (BitVec.ofNat 32 s.dqsel.toNat))
    ∧ hostRead 0x0008#16 s = .next (answered s 0)

/-- R62 for the tables: `QTAB` and `SHTAB` always, and the cells of `MF`, `BIAS`, `DQMF` that are written, zero-extended. -/
def Obligations.ReadsOfTables : Prop :=
  ∀ (s : State) (qp i : Nat), qp < 64 → i < 64 →
    (hostRead (BitVec.ofNat 16 (0x0100 + qp)) s = .next (answered s (BitVec.ofNat 32 (s.cfg.val.qtab.getD qp 0))))
    ∧ (hostRead (BitVec.ofNat 16 (0x0140 + qp)) s = .next (answered s (BitVec.ofNat 32 (s.cfg.val.shtab.getD qp 0))))
    ∧ (∀ v, s.mf.read (mfAddr qp i) = some v →
        hostRead (BitVec.ofNat 16 (0x1000 + 64 * qp + i)) s = .next (answered s (BitVec.ofNat 32 v.toNat)))
    ∧ (∀ v, s.bias.read (biasAddr qp i) = some v →
        hostRead (BitVec.ofNat 16 (0x2000 + 64 * qp + i)) s = .next (answered s (BitVec.ofNat 32 v.toNat)))
    ∧ (∀ v, s.dqmf.read (dqmfAddr qp i) = some v →
        hostRead (BitVec.ofNat 16 (0x3000 + 64 * qp + i)) s = .next (answered s (BitVec.ofNat 32 v.toNat)))

/-- R62 for a channel window: a `BLK` register sign-extended, the flag zero-extended. That an unwritten register answers a free
value, with `M_UNINIT` reported, is the model's choice (assumption log 21, DESIGN CHOICE). -/
def Obligations.ReadsOfChannelWindow : Prop :=
  ∀ (s : State) (ch i : Nat), ch < s.nch → i < 64 →
    hostRead (BitVec.ofNat 16 (0x4000 + 0x100 * ch + i)) s
        = .next (answered (reported s (s.blk.read (blkAddr ch i))) (BitVec.ofInt 32 (s.blkAt (blkAddr ch i)).toInt))
    ∧ hostRead (BitVec.ofNat 16 (0x4040 + 0x100 * ch)) s = .next (answered s (if s.nzOf ch then 1 else 0))

/-- R62: a read, in every phase, changes nothing but the host's results and, when it raises, the fault registers; it
returns one word. A read of an unwritten `BLK` register also changes the run's report, which is the model's choice
(assumption log 21, DESIGN CHOICE). -/
def Obligations.ReadsChangeNothingElse : Prop :=
  ∀ (s t : State) (a : Addr), hostRead a s = .next t →
    t = { s with results := t.results, phase := t.phase, fcode := t.fcode, fwe := t.fwe, faddr := t.faddr,
                 fdata := t.fdata, modelFault := t.modelFault }
    ∧ (t.modelFault ≠ s.modelFault → blkRegAddr s.nch a.toNat ∧ s.blk.read a.toNat = none)
    ∧ (∃ v, t.results = s.results ++ [v])
    ∧ ((t.phase, t.fcode, t.fwe, t.faddr, t.fdata) ≠ (s.phase, s.fcode, s.fwe, s.faddr, s.fdata) →
        unmappedAddr s.nch a.toNat ∧ s.phase ≠ .fault)

/-- R205: an access to an unmapped address in CONFIG or READY raises `BADADDR`, a read returning 0; a read of `CMD` is no
fault. -/
def Obligations.UnmappedAccessRaisesBadAddr : Prop :=
  (∀ (s : State) (a : Addr), s.phase ≠ .fault → unmappedAddr s.nch a.toNat →
    hostRead a s = .next (answered (faulted s .badAddr a 0 false) 0)
    ∧ ∀ d, hostWrite a d s = .next (faulted s .badAddr a d true))
  ∧ ∀ s : State, hostRead 0x0008#16 s = .next (answered s 0)

/-- R206: a write to a read-only location raises `ROWRITE`. -/
def Obligations.ReadOnlyWriteRaisesRoWrite : Prop :=
  ∀ (s : State) (a : Addr) (d : Word), s.phase ≠ .fault → readOnlyAddr s.nch a.toNat →
    hostWrite a d s = .next (faulted s .roWrite a d true)

/-- R208: a write to `CPUFEAT`, `CQM`, `MF`, `BIAS` or `DQMF` in READY raises `FROZEN`, whatever the data. -/
def Obligations.TableWriteInReadyRaisesFrozen : Prop :=
  ∀ (s : State) (a : Addr) (d : Word), s.phase = .ready → configOnlyAddr a.toNat →
    hostWrite a d s = .next (faulted s .frozen a d true)

/-- R207: a write of an illegal value to a writable location raises `RANGE`: to `BLK` in CONFIG and READY, to the other
locations in CONFIG; in READY those raise `FROZEN` whatever the data, legal or not. -/
def Obligations.IllegalDataRaisesRange : Prop :=
  ∀ (s : State) (a : Addr) (d : Word),
    (¬ legalData a.toNat d.toNat →
      (configOnlyAddr a.toNat → s.phase = .config → hostWrite a d s = .next (faulted s .range a d true))
      ∧ (blkRegAddr s.nch a.toNat → s.phase ≠ .fault → hostWrite a d s = .next (faulted s .range a d true)))
    ∧ (configOnlyAddr a.toNat → s.phase = .ready → hostWrite a d s = .next (faulted s .frozen a d true))

/-- R63 and R66 in CONFIG: a legal write to a table cell stores exactly that cell and changes nothing else; a legal write
to `CPUFEAT` or `CQM` stores that register and changes nothing else. -/
def Obligations.LegalConfigWriteStoresTheCell : Prop :=
  ∀ (s : State) (a : Addr) (d : Word), s.phase = .config → legalData a.toNat d.toNat →
    (a.toNat = 3 → hostWrite a d s = .next { s with cpufeat := d })
    ∧ (a.toNat = 4 → hostWrite a d s = .next { s with cqm := if d = 0 then .flat else .custom })
    ∧ (0x1000 ≤ a.toNat → a.toNat ≤ 0x1FFF → ∃ t, hostWrite a d s = .next t ∧ t = { s with mf := t.mf }
        ∧ t.mf.read a.toNat = some (BitVec.ofNat 16 d.toNat) ∧ ∀ b ≠ a.toNat, t.mf.read b = s.mf.read b)
    ∧ (0x2000 ≤ a.toNat → a.toNat ≤ 0x2FFF → ∃ t, hostWrite a d s = .next t ∧ t = { s with bias := t.bias }
        ∧ t.bias.read a.toNat = some (BitVec.ofNat 15 d.toNat) ∧ ∀ b ≠ a.toNat, t.bias.read b = s.bias.read b)
    ∧ (0x3000 ≤ a.toNat → a.toNat ≤ 0x3FFF → ∃ t, hostWrite a d s = .next t ∧ t = { s with dqmf := t.dqmf }
        ∧ t.dqmf.read a.toNat = some (BitVec.ofNat 16 d.toNat) ∧ ∀ b ≠ a.toNat, t.dqmf.read b = s.dqmf.read b)

/-- R23: a `BLK` register is read sign-extended; a write is legal exactly when the data is the sign extension of its low 16
bits, and then stores them and changes nothing else; any other data raises `RANGE` and writes nothing. That a register
nothing has written is read as a free value, with `M_UNINIT` reported, is the model's choice (assumption log 21, DESIGN
CHOICE). -/
def Obligations.BlkTravelsSignExtended : Prop :=
  ∀ (s : State) (a : Addr), blkRegAddr s.nch a.toNat →
    hostRead a s = .next (answered (reported s (s.blk.read a.toNat)) ((s.blkAt a.toNat).signExtend 32))
    ∧ (∀ d : Word, s.phase ≠ .fault → d = (d.setWidth 16).signExtend 32 →
        ∃ t, hostWrite a d s = .next t ∧ t = { s with blk := t.blk } ∧ t.blk.read a.toNat = some (d.setWidth 16)
          ∧ t.blkAt a.toNat = d.setWidth 16 ∧ ∀ b ≠ a.toNat, t.blk.read b = s.blk.read b ∧ t.blkAt b = s.blkAt b)
    ∧ (∀ d : Word, s.phase ≠ .fault → d ≠ (d.setWidth 16).signExtend 32 →
        hostWrite a d s = .next (faulted s .range a d true))

/-- R64: for every writable location, a legal write followed by a read of the same address returns the written word. -/
def Obligations.LegalWriteThenReadReturnsTheWord : Prop :=
  ∀ (s : State) (a : Addr) (d : Word), legalData a.toNat d.toNat →
    (configOnlyAddr a.toNat ∧ s.phase = .config) ∨ (blkRegAddr s.nch a.toNat ∧ s.phase ≠ .fault) →
    ∃ t, hostWrite a d s = .next t ∧ hostRead a t = .next (answered t d)

/-- R219: in FAULT phase every write is ignored, a read of a mapped location that holds a value by the spec returns it (an
unwritten `BLK` register is in `ReadsOfChannelWindow`), and a read of an unmapped address returns 0 and records nothing. -/
def Obligations.FaultPhaseServesReadsOnly : Prop :=
  ∀ s : State, s.phase = .fault →
    (∀ a d, hostWrite a d s = .next s)
    ∧ (∀ a, unmappedAddr s.nch a.toNat → hostRead a s = .next (answered s 0))
    ∧ (∀ a v, ¬ unmappedAddr s.nch a.toNat → (blkRegAddr s.nch a.toNat → s.blk.read a.toNat ≠ none) →
        readLocation s (location s.nch a) = some v →
        hostRead a s = .next (answered s v))

/-! ## Reset and configuration -/

/-- R42: the reset event, in any phase, puts every piece of state at the value of the table; the unspecified cells are
unwritten (R43); the constant tables and the parameters are not affected. -/
def Obligations.ResetLeavesTheResetValues : Prop :=
  ∀ (s : State) (rest : List HostOp) (q : CatEntry) (qs : List CatEntry) (d : CatEntry) (ds : List CatEntry),
    s.pending = .reset :: rest → s.cfg.val.catQ = q :: qs → s.cfg.val.catDq = d :: ds →
    ∃ t, step s = .next t ∧ t.phase = .config ∧ t.fcode = .none ∧ t.fwe = false ∧ t.faddr = 0 ∧ t.fdata = 0
      ∧ t.cpufeat = 0 ∧ t.cqm = .flat ∧ t.qsel = BitVec.ofNat 8 q.id ∧ t.dqsel = BitVec.ofNat 8 d.id
      ∧ (∀ ch, t.nzOf ch = false)
      ∧ (∀ a, t.blk.read a = none ∧ t.mf.read a = none ∧ t.bias.read a = none ∧ t.dqmf.read a = none)
      ∧ t.cfg = s.cfg

/-- The model's reset state, the reset of a block with the spec's default parameters and free tables; the model's own fields
are empty or 0 (the model's choice, assumption log 2, 3 and 21). The reset event leads to it from every state over the same
parameters with nothing else to do and nothing read or reported, but for the count of resets, which goes up by one. -/
def Obligations.ResetStateIsTheResetOfTheDefaults : Prop :=
  State.reset =
      { cfg := Config.givenValid, phase := .config, fcode := .none, fwe := false, faddr := 0, fdata := 0, cpufeat := 0,
        cqm := .flat, qsel := 0, dqsel := 0, mf := [], bias := [], dqmf := [], blk := [],
        nz := Vector.replicate 16 false, pending := [], results := [], resets := 0, modelFault := none }
  ∧ (∀ s : State, s.cfg = State.reset.cfg →
      step { s with pending := [.reset], results := [], modelFault := none }
        = .next { State.reset with resets := s.resets + 1 })
  ∧ Config.givenValid.val.accw = 32 ∧ Config.givenValid.val.nch = 1

/-- R8: the clauses of `WF(cfg)`, and a configuration that fails it has no state; one that meets it has its reset state. -/
def Obligations.IllFormedConfigurationIsRefused : Prop :=
  (∀ c : Config, c.wf = true ↔
    (c.qtab.length = 64 ∧ c.shtab.length = 64)
    ∧ ((∀ v ∈ c.qtab, v ≤ 65535) ∧ (∀ v ∈ c.shtab, 1 ≤ v ∧ v ≤ 15))
    ∧ (∀ q ≤ 62, c.qtab.getD (q + 1) 0 ≤ c.qtab.getD q 0)
    ∧ (∀ q ≤ 62, c.shtab.getD (q + 1) 0 ≤ c.shtab.getD q 0)
    ∧ 32 ≤ c.accw ∧ (1 ≤ c.nch ∧ c.nch ≤ 16)
    ∧ (∃ e es, c.catQ = e :: es ∧ e.gate = 0) ∧ (∃ e es, c.catDq = e :: es ∧ e.gate = 0)
    ∧ (∀ e ∈ c.catQ ++ c.catDq ++ c.catDqFlat, e.id ≤ 255 ∧ e.gate ≤ 2 ^ 32 - 1))
  ∧ (∀ c : Config, c.wf = false → State.ofConfig c = none)
  ∧ (∀ (c : Config) (h : c.wf = true), State.ofConfig c = some (State.resetOf ⟨c, h⟩))

/-- R41: no step changes the parameters, the constant tables among them. -/
def Obligations.StepsKeepTheConfiguration : Prop :=
  ∀ s t : State, step s = .next t → t.cfg = s.cfg

/-! ## The capability dispatcher -/

/-- R180: `sel` is the identifier of the last matching entry, and over a catalog whose first entry has gate 0 it always
exists. -/
def Obligations.SelIsTheLastMatch : Prop :=
  (∀ cat feat id, sel cat feat = some id ↔ IsLastMatch cat feat id)
  ∧ (∀ cat feat, sel cat feat = none ↔ ∀ e ∈ cat, ¬ gateHeld feat e)
  ∧ (∀ e es feat, e.gate = 0 → ∃ id, sel (e :: es) feat = some id)
  ∧ (∀ (c : ValidConfig) (feat : Word), (∃ id, sel c.val.catQ feat = some id) ∧ ∃ id, sel c.val.catDq feat = some id)

/-- R182, R183, R184: in CONFIG, `DISPATCH` completes; it writes `QSEL`, `DQSEL` and `PHASE` and nothing else; `QSEL` is the
last match of `CAT_Q`; `DQSEL` is the last match of `CAT_DQFLAT` when `CQM` is FLAT and an entry of it matches, and the last
match of `CAT_DQ` otherwise. -/
def Obligations.DispatchBindsTheLastMatches : Prop :=
  ∀ s : State, s.phase = .config → ∃ q d : VariantId,
    exec .dispatch s = .next { s with qsel := q, dqsel := d, phase := .ready }
    ∧ IsLastMatch s.cfg.val.catQ s.cpufeat q
    ∧ ((s.cqm = .flat ∧ ∃ e ∈ s.cfg.val.catDqFlat, gateHeld s.cpufeat e) →
        IsLastMatch s.cfg.val.catDqFlat s.cpufeat d)
    ∧ (¬ (s.cqm = .flat ∧ ∃ e ∈ s.cfg.val.catDqFlat, gateHeld s.cpufeat e) →
        IsLastMatch s.cfg.val.catDq s.cpufeat d)

/-- R191: `DISPATCH` binds 0 and 0 under the default catalogs for every `CPUFEAT` and `CQM`, and binds as the table says
under the example catalogs. -/
def Obligations.ExampleCatalogsBindAsTabled : Prop :=
  ∀ s : State, s.phase = .config →
    let binds := fun (feat : Word) (preset : Preset) (q d : VariantId) =>
      exec .dispatch { s with cpufeat := feat, cqm := preset }
        = .next { s with cpufeat := feat, cqm := preset, qsel := q, dqsel := d, phase := .ready }
    (s.cfg.val.catQ = [⟨0, 0⟩] → s.cfg.val.catDq = [⟨0, 0⟩] → s.cfg.val.catDqFlat = [] →
      ∀ feat preset, binds feat preset 0 0)
    ∧ (s.cfg.val.catQ = [⟨0, 0x0⟩, ⟨1, 0x1⟩, ⟨2, 0x3⟩, ⟨3, 0x7⟩] → s.cfg.val.catDq = [⟨0, 0x0⟩, ⟨1, 0x1⟩, ⟨2, 0x3⟩] →
      s.cfg.val.catDqFlat = [⟨16, 0x1⟩, ⟨17, 0x3⟩] →
      binds 0x0 .flat 0 0 ∧ binds 0x1 .flat 1 16 ∧ binds 0x1 .custom 1 1 ∧ binds 0x5 .custom 1 1
      ∧ binds 0x6 .flat 0 0 ∧ binds 0x7 .flat 3 17 ∧ binds 0x7 .custom 3 2 ∧ binds 0xFFFFFFFF .flat 3 17)

/-- R185: `DISPATCH` enters READY; from then on (in READY, and in FAULT) nothing but reset changes `QSEL`, `DQSEL`, `CPUFEAT`,
`CQM`, `MF`, `BIAS` or `DQMF`; in READY a host write to any of them raises `FROZEN` or `ROWRITE`, and a second `DISPATCH`
raises `BADPHASE`. -/
def Obligations.DispatchFreezesHandleAndTables : Prop :=
  (∀ s : State, s.phase = .config → ∃ t, exec .dispatch s = .next t ∧ t.phase = .ready)
  ∧ (∀ s t : State, s.phase ≠ .config → (∀ rest, s.pending ≠ .reset :: rest) → step s = .next t →
    t.phase ≠ .config ∧ t.qsel = s.qsel ∧ t.dqsel = s.dqsel ∧ t.cpufeat = s.cpufeat ∧ t.cqm = s.cqm ∧ t.mf = s.mf
    ∧ t.bias = s.bias ∧ t.dqmf = s.dqmf)
  ∧ (∀ (s : State) (a : Addr) (d : Word), s.phase = .ready →
      (configOnlyAddr a.toNat → hostWrite a d s = .next (faulted s .frozen a d true))
      ∧ (a.toNat = 5 ∨ a.toNat = 6 → hostWrite a d s = .next (faulted s .roWrite a d true)))
  ∧ ∀ s : State, s.phase = .ready → exec .dispatch s = .next (faulted s .badPhase 0x0008#16 0x10000000#32 true)

/-! ## The forward quantizer -/

/-- R131: `QUANT` completes on every accepted command whose rows are written and whose positions keep `Pacc`: each register
gets the level of R132 and R133, and the flag says whether one of the 64 levels is non-zero. That it also completes over
registers nothing has written, with their free values, is the model's choice (assumption log 21, DESIGN CHOICE); R43 and R131
name `M_UNINIT` there. -/
def Obligations.QuantWritesTheLevels : Prop :=
  ∀ (s : State) (ch qp : Nat) (c : Nat → Coef) (m : Nat → Mult) (f : Nat → Bias),
    accepted s ch qp → blkHolds s ch c → mfHolds s qp m → biasHolds s qp f →
    (∀ i < 64, rulePacc s.cfg.val.accw (c i).toInt (m i).toNat) →
    let lvl := fun i => ruleLevel (c i).toInt (m i).toNat (f i).toNat (s.cfg.val.qtab.getD qp 0)
    ∃ t, exec (.quant ch qp) s = .next t
      ∧ (∀ i < 64, t.blkAt (blkAddr ch i) = BitVec.ofInt 16 (lvl i) ∧ (BitVec.ofInt 16 (lvl i)).toInt = lvl i)
      ∧ (t.nzOf ch = true ↔ ∃ i < 64, lvl i ≠ 0)

/-- The frame of `QUANT` (R22, R131): a `QUANT` that ends without a fault entry changes only the 64 registers and the flag of
its own channel, and, where it used an unwritten register, the run's report (assumption log 21, DESIGN CHOICE). -/
def Obligations.QuantFrame : Prop :=
  ∀ (s t : State) (ch qp : Nat), s.phase = .ready → exec (.quant ch qp) s = .next t → t.phase ≠ .fault →
    t = { s with blk := t.blk, nz := t.nz, modelFault := t.modelFault }
    ∧ (t.modelFault ≠ s.modelFault → ∃ i < 64, s.blk.read (blkAddr ch i) = none)
    ∧ (∀ a, ¬ (blkAddr ch 0 ≤ a ∧ a < blkAddr ch 0 + 64) → t.blk.read a = s.blk.read a ∧ t.blkAt a = s.blkAt a)
    ∧ (∀ c, c ≠ ch → t.nzOf c = s.nzOf c)

/-- R136: the bounds of the intermediates for every legal input, and of the level. -/
def Obligations.QuantIntermediateBounds : Prop :=
  ∀ a mf f q : Int, 0 ≤ a → a ≤ 32768 → 1 ≤ mf → mf ≤ 65535 → 0 ≤ f → f ≤ 32767 → 0 ≤ q → q ≤ 65535 →
    let p := a * mf + 2 ^ 18
    let t := shr p 19
    let u := f + t * q
    (2 ^ 18 ≤ p ∧ p ≤ 2147713024) ∧ (0 ≤ t ∧ t ≤ 4096) ∧ (p ≤ 2 ^ 31 - 1 → t ≤ 4095)
    ∧ (0 ≤ u ∧ u ≤ 268464127) ∧ (0 ≤ qmag a mf f q ∧ qmag a mf f q ≤ 8192)
    ∧ (-8192 ≤ level a mf f q ∧ level a mf f q ≤ 8192) ∧ (-8192 ≤ level (-a) mf f q ∧ level (-a) mf f q ≤ 8192)

/-- R140 and R139: levels of `c` and `-c` are negations of each other; zero gives zero over the legal biases, and would give
-1 over the biases 32768 to 65535. -/
def Obligations.QuantIsSignSymmetric : Prop :=
  (∀ c mf f q : Int, 1 ≤ c → c ≤ 32767 → level (-c) mf f q = -(level c mf f q))
  ∧ (∀ mf f q : Int, level 0 mf f q = -(f / 32768))
  ∧ (∀ mf f q : Int, 0 ≤ f → f ≤ 32767 → level 0 mf f q = 0)
  ∧ (∀ mf f q : Int, 32768 ≤ f → f ≤ 65535 → level 0 mf f q = -1)

/-- R143: `Qmag` is non-decreasing in each of its arguments. -/
def Obligations.QmagIsMonotone : Prop :=
  ∀ a a' mf mf' f f' q q' : Int, 0 ≤ a → a ≤ a' → 0 ≤ mf → mf ≤ mf' → f ≤ f' → 0 ≤ q → q ≤ q' →
    qmag a mf f q ≤ qmag a' mf' f' q'

/-- R142: an all-zero block stays all-zero under `QUANT` and its flag becomes 0, for every QP in range and every table
content. A block with unwritten registers whose free values are 0 is in it by the model's choice (assumption log 21, DESIGN
CHOICE). -/
def Obligations.QuantPreservesZero : Prop :=
  ∀ (s : State) (ch qp : Nat) (m : Nat → Mult) (f : Nat → Bias),
    accepted s ch qp → blkHolds s ch (fun _ => 0) → mfHolds s qp m → biasHolds s qp f →
    ∃ t, exec (.quant ch qp) s = .next t ∧ blkHolds t ch (fun _ => 0) ∧ t.nzOf ch = false

/-- R144: with `QTAB[qp] = 0` every level is 0 and the flag becomes 0, whatever the coefficients. Registers nothing has written
are in it by the model's choice (assumption log 21, DESIGN CHOICE); R43 and R131 name `M_UNINIT` there. -/
def Obligations.QuantWithZeroTableEntry : Prop :=
  ∀ (s : State) (ch qp : Nat) (c : Nat → Coef) (m : Nat → Mult) (f : Nat → Bias),
    accepted s ch qp → blkHolds s ch c → mfHolds s qp m → biasHolds s qp f →
    (∀ i < 64, rulePacc s.cfg.val.accw (c i).toInt (m i).toNat) → s.cfg.val.qtab.getD qp 0 = 0 →
    ∃ t, exec (.quant ch qp) s = .next t ∧ blkHolds t ch (fun _ => 0) ∧ t.nzOf ch = false

/-- R135: a `QUANT` over written cells with a position without `Pacc` stops with `M_QOVF`; where `Pacc` holds and fails with 32
bits, and that it always holds with 33 bits or more. Where a register of the block is unwritten the stop is `M_UNINIT`, as R43
names it; that the free values decide whether it stops at all is the model's choice (assumption log 6 and 21, DESIGN CHOICE). -/
def Obligations.QuantOverflowStops : Prop :=
  (∀ (s : State) (ch qp : Nat) (c : Nat → Coef) (m : Nat → Mult) (f : Nat → Bias),
    accepted s ch qp → blkHolds s ch c → mfHolds s qp m → biasHolds s qp f →
    (∃ i < 64, ¬ rulePacc s.cfg.val.accw (c i).toInt (m i).toNat) →
    ((∀ i < 64, s.blk.read (blkAddr ch i) ≠ none) → exec (.quant ch qp) s = .fault .mQovf)
    ∧ ((∃ i < 64, s.blk.read (blkAddr ch i) = none) → exec (.quant ch qp) s = .fault .mUninit))
  ∧ (∀ (c : Coef) (m : Mult), rulePacc 32 c.toInt m.toNat ↔ |c.toInt| * m.toNat ≤ 2147221503)
  ∧ (∀ (c : Coef) (m : Mult), m.toNat ≤ 65527 → rulePacc 32 c.toInt m.toNat)
  ∧ (¬ rulePacc 32 (-32768) 65528 ∧ ¬ rulePacc 32 32767 65535 ∧ rulePacc 32 32767 65528)
  ∧ (∀ (accw : Nat) (c : Coef) (m : Mult), 33 ≤ accw → rulePacc accw c.toInt m.toNat)

/-- R145: two accepted `QUANT` commands with equal inputs (the block, the rows `MF[qp]` and `BIAS[qp]`, `QTAB[qp]`, the
accumulator width) give equal blocks and flags, whatever the rest of the two states holds. -/
def Obligations.QuantDependsOnItsInputsOnly : Prop :=
  ∀ (s s' t : State) (ch qp : Nat), s.phase = .ready → accepted s' ch qp → s'.cfg.val.accw = s.cfg.val.accw →
    s'.cfg.val.qtab.getD qp 0 = s.cfg.val.qtab.getD qp 0 →
    (∀ i < 64, s'.blkAt (blkAddr ch i) = s.blkAt (blkAddr ch i)) →
    (∀ i < 64, s'.mf.read (mfAddr qp i) = s.mf.read (mfAddr qp i)) →
    (∀ i < 64, s'.bias.read (biasAddr qp i) = s.bias.read (biasAddr qp i)) →
    exec (.quant ch qp) s = .next t → t.phase = .ready →
    ∃ t', exec (.quant ch qp) s' = .next t' ∧ t'.phase = .ready
      ∧ (∀ i < 64, t'.blkAt (blkAddr ch i) = t.blkAt (blkAddr ch i)) ∧ t'.nzOf ch = t.nzOf ch

/-! ## The inverse quantizer -/

/-- R161: `DEQUANT` completes on every accepted command whose row is written: each register gets the clamped value of R162
and R164, and every flag is kept (R168). That it also completes over registers nothing has written, with their free values, is
the model's choice (assumption log 21, DESIGN CHOICE); R43 and R161 name `M_UNINIT` there. -/
def Obligations.DequantWritesTheClampedValues : Prop :=
  ∀ (s : State) (ch qp : Nat) (l : Nat → Coef) (g : Nat → Mult),
    accepted s ch qp → blkHolds s ch l → dqmfHolds s qp g →
    let out := fun i => ruleValue (l i).toInt (g i).toNat (s.cfg.val.shtab.getD qp 0)
    ∃ t, exec (.dequant ch qp) s = .next t
      ∧ (∀ i < 64, t.blkAt (blkAddr ch i) = BitVec.ofInt 16 (out i) ∧ (BitVec.ofInt 16 (out i)).toInt = out i)
      ∧ t.nz = s.nz

/-- The frame of `DEQUANT` (R22, R161, R168): a `DEQUANT` that ends without a fault entry changes only the 64 registers of
its own channel, and, where it used an unwritten register, the run's report (assumption log 21, DESIGN CHOICE). -/
def Obligations.DequantFrame : Prop :=
  ∀ (s t : State) (ch qp : Nat), s.phase = .ready → exec (.dequant ch qp) s = .next t → t.phase ≠ .fault →
    t = { s with blk := t.blk, modelFault := t.modelFault }
    ∧ (t.modelFault ≠ s.modelFault → ∃ i < 64, s.blk.read (blkAddr ch i) = none)
    ∧ (∀ a, ¬ (blkAddr ch 0 ≤ a ∧ a < blkAddr ch 0 + 64) → t.blk.read a = s.blk.read a ∧ t.blkAt a = s.blkAt a)

/-- R166: the bounds of the intermediates for every legal input. -/
def Obligations.DequantIntermediateBounds : Prop :=
  ∀ (l g : Int) (sh : Nat), -32768 ≤ l → l ≤ 32767 → 0 ≤ g → g ≤ 65535 → 1 ≤ sh → sh ≤ 15 →
    (-2147450880 ≤ l * g ∧ l * g ≤ 2147385345) ∧ ((1 : Int) ≤ 2 ^ (sh - 1) ∧ (2 : Int) ^ (sh - 1) ≤ 16384)
    ∧ (-2147450879 ≤ l * g + 2 ^ (sh - 1) ∧ l * g + 2 ^ (sh - 1) ≤ 2147401729)
    ∧ (-1073725440 ≤ dval l g sh ∧ dval l g sh ≤ 1073692673)

/-- R162: the value is the floor of the rounded quotient, for negative sums too; a tie rounds up for both signs; with the
worked examples. -/
def Obligations.DequantShiftIsTheFloor : Prop :=
  (∀ (l g : Int) (sh : Nat), 1 ≤ sh →
    dval l g sh * 2 ^ sh ≤ l * g + 2 ^ (sh - 1) ∧ l * g + 2 ^ (sh - 1) < (dval l g sh + 1) * 2 ^ sh)
  ∧ (∀ (l g : Int) (sh : Nat), 1 ≤ sh → l * g % 2 ^ sh = 2 ^ (sh - 1) → dval l g sh * 2 ^ sh = l * g + 2 ^ (sh - 1))
  ∧ dval 1 32768 14 = 2 ∧ dval (-1) 32768 14 = -2 ∧ dval 1 8192 14 = 1 ∧ dval (-1) 8192 14 = 0

/-- R164: the clamp, on values below, above and inside the 16-bit range, with the worked examples. -/
def Obligations.ClampKeepsTheSignedRange : Prop :=
  (∀ v : Int, v < -32768 → clamp16 v = -32768) ∧ (∀ v : Int, 32767 < v → clamp16 v = 32767)
  ∧ (∀ v : Int, -32768 ≤ v → v ≤ 32767 → clamp16 v = v)
  ∧ (dval 64 65535 7 = 32768 ∧ clamp16 (dval 64 65535 7) = 32767)
  ∧ (dval (-64) 65535 7 = -32767 ∧ clamp16 (dval (-64) 65535 7) = -32767)
  ∧ (dval (-16384) 32768 14 = -32768 ∧ clamp16 (dval (-16384) 32768 14) = -32768)
  ∧ (dval 16384 32768 14 = 32768 ∧ clamp16 (dval 16384 32768 14) = 32767)

/-- R169: a zero level and a zero multiplier give zero, and an all-zero block stays all-zero under `DEQUANT`. A block with
unwritten registers whose free values are 0 is in it by the model's choice (assumption log 21, DESIGN CHOICE). -/
def Obligations.DequantPreservesZero : Prop :=
  (∀ (g : Int) (sh : Nat), 1 ≤ sh → dval 0 g sh = 0) ∧ (∀ (l : Int) (sh : Nat), 1 ≤ sh → dval l 0 sh = 0)
  ∧ ∀ (s : State) (ch qp : Nat) (g : Nat → Mult),
      accepted s ch qp → blkHolds s ch (fun _ => 0) → dqmfHolds s qp g →
      ∃ t, exec (.dequant ch qp) s = .next t ∧ blkHolds t ch (fun _ => 0)

/-- R171: two accepted `DEQUANT` commands with equal inputs (the block, the row `DQMF[qp]`, `SHTAB[qp]`) give equal blocks,
whatever the rest of the two states holds. -/
def Obligations.DequantDependsOnItsInputsOnly : Prop :=
  ∀ (s s' t : State) (ch qp : Nat), s.phase = .ready → accepted s' ch qp →
    s'.cfg.val.shtab.getD qp 0 = s.cfg.val.shtab.getD qp 0 →
    (∀ i < 64, s'.blkAt (blkAddr ch i) = s.blkAt (blkAddr ch i)) →
    (∀ i < 64, s'.dqmf.read (dqmfAddr qp i) = s.dqmf.read (dqmfAddr qp i)) →
    exec (.dequant ch qp) s = .next t → t.phase = .ready →
    ∃ t', exec (.dequant ch qp) s' = .next t' ∧ t'.phase = .ready
      ∧ ∀ i < 64, t'.blkAt (blkAddr ch i) = t.blkAt (blkAddr ch i)

/-! ## Both block commands -/

/-- R210, R211, R212: where a command traps, and that it then changes the phase and the fault registers alone. Two clauses are
the model's: the recorded data (R29) is written as the encoding of the command (assumption log 7, DEDUCED), and a command's
meaning in FAULT phase is no change, since its write is ignored there (R219; assumption log 8, DEDUCED). -/
def Obligations.BlockCommandTraps : Prop :=
  (∀ (s : State) (ch qp : Nat) (i : Instr), i = .quant ch qp ∨ i = .dequant ch qp →
    (s.phase = .config → exec i s = .next (faulted s .badPhase 0x0008#16 (encode i) true))
    ∧ (s.phase = .ready → s.nch ≤ ch → exec i s = .next (faulted s .badCh 0x0008#16 (encode i) true))
    ∧ (s.phase = .ready → ch < s.nch → 64 ≤ qp → exec i s = .next (faulted s .qpRange 0x0008#16 (encode i) true)))
  ∧ (∀ s : State, s.phase = .ready → exec .dispatch s = .next (faulted s .badPhase 0x0008#16 (encode .dispatch) true))
  ∧ ∀ (s : State) (i : Instr), s.phase = .fault → exec i s = .next s

/-- R43 for the table memories: a host read of an unwritten cell of `MF`, `BIAS` or `DQMF` stops the model with `M_UNINIT`, and
so does an accepted `QUANT` or `DEQUANT` that uses a row with an unwritten cell (assumption log 5). Three things in it are the
model's choice: a `QUANT` that uses an unwritten table cell stops with `M_UNINIT` and not with `M_QOVF` (assumption log 6,
DEDUCED); a host read of an unwritten cell stops in FAULT phase too (assumption log 20, DEDUCED); and no other `DEQUANT` stops
so, and no other `QUANT` over a written block, although R43 names `M_UNINIT` for an unwritten register of the channel too: there
the machine goes on and reports it (assumption log 21, DESIGN CHOICE; `UnwrittenRegisterUseRaisesMUninit`). -/
def Obligations.UnwrittenCellStopsTheModel : Prop :=
  (∀ (s : State) (qp i : Nat), qp < 64 → i < 64 →
    (hostRead (BitVec.ofNat 16 (0x1000 + 64 * qp + i)) s = .fault .mUninit ↔ s.mf.read (mfAddr qp i) = none)
    ∧ (hostRead (BitVec.ofNat 16 (0x2000 + 64 * qp + i)) s = .fault .mUninit ↔ s.bias.read (biasAddr qp i) = none)
    ∧ (hostRead (BitVec.ofNat 16 (0x3000 + 64 * qp + i)) s = .fault .mUninit ↔ s.dqmf.read (dqmfAddr qp i) = none))
  ∧ (∀ (s : State) (ch qp : Nat), accepted s ch qp →
      ((∃ i < 64, s.mf.read (mfAddr qp i) = none ∨ s.bias.read (biasAddr qp i) = none) →
        exec (.quant ch qp) s = .fault .mUninit)
      ∧ ((∀ i < 64, s.blk.read (blkAddr ch i) ≠ none) → exec (.quant ch qp) s = .fault .mUninit →
          ∃ i < 64, s.mf.read (mfAddr qp i) = none ∨ s.bias.read (biasAddr qp i) = none)
      ∧ (exec (.dequant ch qp) s = .fault .mUninit ↔ ∃ i < 64, s.dqmf.read (dqmfAddr qp i) = none))

/-- The model's choice of assumption log 21 (DESIGN CHOICE): R42 gives the `BLK` registers no value at reset, and the model
gives each a free value, about which the statement says nothing. A written register holds what was written to it; reset
leaves every register at the free value of that reset; a read of an unwritten register returns its free value and raises
`M_UNINIT` in `modelFault`; an accepted `QUANT` or `DEQUANT` that completes leaves all 64 registers of its channel written
(R43). -/
def Obligations.UnwrittenRegisterHoldsAFreeValue : Prop :=
  (∀ (s : State) (a : Nat) (v : Coef), s.blk.read a = some v → s.blkAt a = v)
  ∧ (∀ (s : State) (rest : List HostOp), s.pending = .reset :: rest →
      ∃ t, step s = .next t ∧ ∀ a, t.blkAt a = Config.freeBlk (s.resets + 1) a)
  ∧ (∀ (s : State) (ch i : Nat), ch < s.nch → i < 64 → s.blk.read (blkAddr ch i) = none →
      hostRead (BitVec.ofNat 16 (0x4000 + 0x100 * ch + i)) s
        = .next { s with modelFault := some .mUninit,
                         results := s.results ++ [(Config.freeBlk s.resets (blkAddr ch i)).signExtend 32] })
  ∧ (∀ (s t : State) (ch qp : Nat) (i : Instr), accepted s ch qp → i = .quant ch qp ∨ i = .dequant ch qp →
      exec i s = .next t → ∀ k < 64, t.blk.read (blkAddr ch k) ≠ none)

/-- R43, R202 and R243 for the registers: a host read of an unwritten `BLK` register, and an accepted `QUANT` or `DEQUANT` of a
channel with one, have no outcome but `M_UNINIT`: the read and the command that goes on raise it in `modelFault`, and the command
that stops (a table cell, or `Pacc`) stops with it. A step that answers raises it in `modelFault` exactly when its operation
uses an unwritten register, no step takes it back, and a run that raised it is no good run (R245). That the machine goes on from
it is the model's choice (assumption log 21, DESIGN CHOICE): R43 has a model stop. -/
def Obligations.UnwrittenRegisterUseRaisesMUninit : Prop :=
  (∀ (s : State) (ch i : Nat), ch < s.nch → i < 64 → s.blk.read (blkAddr ch i) = none →
      ∃ t, hostRead (BitVec.ofNat 16 (0x4000 + 0x100 * ch + i)) s = .next t ∧ t.modelFault = some .mUninit)
  ∧ (∀ (s : State) (ch qp k : Nat) (i : Instr), accepted s ch qp → i = .quant ch qp ∨ i = .dequant ch qp →
      k < 64 → s.blk.read (blkAddr ch k) = none →
      exec i s = .fault .mUninit ∨ ∃ t, exec i s = .next t ∧ t.modelFault = some .mUninit)
  ∧ (∀ s t : State, step s = .next t → t.modelFault = bif s.usesUnwritten then some .mUninit else s.modelFault)
  ∧ (∀ (n : Nat) (s : State), s.modelFault ≠ none → goodRun n s = false)
  ∧ (∀ (n : Nat) (s : State), s.usesUnwritten = true → goodRun (n + 1) s = false)

/-- R43, R202, R243: the strict step stops with `M_UNINIT` at every use of an unwritten cell: a host read of an unwritten cell of
`MF`, `BIAS`, `DQMF` or `BLK`, and an accepted `QUANT` or `DEQUANT` with an unwritten cell in the rows of its QP or in its
channel; where it answers, it answers as the step does and reports nothing; and it differs from the step only where a register is
unwritten, since there the step goes on (the model's choice, assumption log 21, DESIGN CHOICE). That the stop comes in FAULT phase
too, and before `M_QOVF`, is DEDUCED (assumption log 20 and 6). -/
def Obligations.StrictStepStopsAtEveryUnwrittenCell : Prop :=
  (∀ (s : State) (a : Addr) (rest : List HostOp), s.pending = .read a :: rest →
      (0x1000 ≤ a.toNat ∧ a.toNat ≤ 0x1FFF ∧ s.mf.read a.toNat = none)
        ∨ (0x2000 ≤ a.toNat ∧ a.toNat ≤ 0x2FFF ∧ s.bias.read a.toNat = none)
        ∨ (0x3000 ≤ a.toNat ∧ a.toNat ≤ 0x3FFF ∧ s.dqmf.read a.toNat = none)
        ∨ (blkRegAddr s.nch a.toNat ∧ s.blk.read a.toNat = none) →
      strictStep s = .fault .mUninit)
  ∧ (∀ (s : State) (ch qp k : Nat) (rest : List HostOp), accepted s ch qp → k < 64 →
      (s.pending = .write 0x0008#16 (encode (.quant ch qp)) :: rest →
        s.blk.read (blkAddr ch k) = none ∨ s.mf.read (mfAddr qp k) = none ∨ s.bias.read (biasAddr qp k) = none →
        strictStep s = .fault .mUninit)
      ∧ (s.pending = .write 0x0008#16 (encode (.dequant ch qp)) :: rest →
        s.blk.read (blkAddr ch k) = none ∨ s.dqmf.read (dqmfAddr qp k) = none → strictStep s = .fault .mUninit))
  ∧ (∀ s t : State, strictStep s = .next t → step s = .next t ∧ t.modelFault = s.modelFault)
  ∧ (∀ s : State, (∀ a, blkRegAddr s.nch a → s.blk.read a ≠ none) → strictStep s = step s)

/-- R187: the bound variants and the dispatcher's inputs have no effect on what `QUANT` and `DEQUANT` do, on any outcome. -/
def Obligations.VariantsDoNotChangeResults : Prop :=
  ∀ (s : State) (ch qp : Nat) (i : Instr) (q d : VariantId) (feat : Word) (preset : Preset),
    i = .quant ch qp ∨ i = .dequant ch qp →
    exec i { s with qsel := q, dqsel := d, cpufeat := feat, cqm := preset } =
      mapNext (fun t => { t with qsel := q, dqsel := d, cpufeat := feat, cqm := preset }) (exec i s)

/-- R74: two block commands of different channels that complete give the same state in either order. -/
def Obligations.CommandsOfDifferentChannelsCommute : Prop :=
  ∀ (s t u : State) (ch qp ch' qp' : Nat) (i j : Instr),
    i = .quant ch qp ∨ i = .dequant ch qp → j = .quant ch' qp' ∨ j = .dequant ch' qp' → ch ≠ ch' →
    s.blk.wf = true → s.phase = .ready → exec i s = .next t → exec j t = .next u → u.phase = .ready →
    ∃ t', exec j s = .next t' ∧ exec i t' = .next u

/-! ## The whole machine -/

/-- The invariant of `State.inv` holds of the reset state over every well-formed configuration. -/
def Obligations.InvariantHoldsAtReset : Prop :=
  (∀ c : ValidConfig, (State.resetOf c).inv = true) ∧ State.reset.inv = true

/-- Every step keeps the invariant: the memories stay canonical and hold only mapped cells with positive multipliers, the
fault registers agree with the phase (R27), the Implementation Handle is unbound before `DISPATCH` and bound as R182 to R184
say after it, and channels that do not exist have no flag. -/
def Obligations.StepsKeepTheInvariant : Prop :=
  ∀ s t : State, s.inv = true → step s = .next t → t.inv = true

/-- R189, R26: the whole transition relation of `PHASE`. -/
def Obligations.PhaseTransitions : Prop :=
  ∀ s t : State, step s = .next t →
    t.phase = s.phase
    ∨ (t.phase = .config ∧ ∃ rest, s.pending = .reset :: rest)
    ∨ (s.phase = .config ∧ t.phase = .ready ∧ ∃ rest, s.pending = .write 0x0008#16 0x10000000#32 :: rest)
    ∨ (s.phase ≠ .fault ∧ t.phase = .fault ∧ t.fcode ≠ .none)

/-- R204: in FAULT phase no transaction changes anything but what the host has read (and, for a read of an unwritten `BLK`
register, the run's report, which is the model's own: assumption log 21), so the fault registers keep the first
fault since reset; only reset leaves the phase (R216). -/
def Obligations.FirstFaultWins : Prop :=
  ∀ s t : State, s.phase = .fault → (∀ rest, s.pending ≠ .reset :: rest) → step s = .next t →
    t = { s with pending := s.pending.tail, results := t.results, modelFault := t.modelFault }

/-- R203, R215: a step that enters FAULT has no other effect than the fault registers, the phase and a read's 0; the recorded
address and data are those of the transaction. -/
def Obligations.FaultsArePrecise : Prop :=
  ∀ s t : State, s.phase ≠ .fault → step s = .next t → t.phase = .fault →
    t = { s with pending := s.pending.tail, results := t.results, phase := .fault, fcode := t.fcode, fwe := t.fwe,
                 faddr := t.faddr, fdata := t.fdata }
    ∧ t.fcode ≠ .none
    ∧ ((∃ a rest, s.pending = .read a :: rest ∧ t.faddr = a ∧ t.fdata = 0 ∧ t.fwe = false ∧ t.fcode = .badAddr
          ∧ t.results = s.results ++ [0])
        ∨ (∃ a d rest, s.pending = .write a d :: rest ∧ t.faddr = a ∧ t.fdata = d ∧ t.fwe = true
          ∧ t.results = s.results))

/-- R25: a step changes a channel's flag only by reset or by a `QUANT` of that channel. -/
def Obligations.FlagIsWrittenByQuantOnly : Prop :=
  ∀ (s t : State) (ch : Nat), step s = .next t → t.nzOf ch ≠ s.nzOf ch →
    (∃ rest, s.pending = .reset :: rest)
    ∨ (∃ qp d rest, s.pending = .write 0x0008#16 d :: rest ∧ decode d = .ok (.quant ch qp))

/-- R67, R68, U9: a bridge forwards exactly the naturally aligned 32-bit accesses of the block's window, word address a quarter
of the byte offset, little-endian. Alignment is that of the bus address; the spec does not say that the window begins at a
multiple of 4, and one that does not is given no access (the model's choice, assumption log 13). -/
def Obligations.BridgeForwardsAlignedWordsOnly : Prop :=
  (∀ (base a size : Nat) (op : HostOp), bridge base (.load a size) = some op ↔
    size = 4 ∧ a % 4 = 0 ∧ ∃ w < 65536, a = base + 4 * w ∧ op = .read (BitVec.ofNat 16 w))
  ∧ (∀ (base a : Nat) (bytes : List (BitVec 8)) (op : HostOp), bridge base (.store a bytes) = some op ↔
    ∃ b0 b1 b2 b3, bytes = [b0, b1, b2, b3] ∧ a % 4 = 0 ∧ ∃ w < 65536, a = base + 4 * w ∧
      op = .write (BitVec.ofNat 16 w)
        (BitVec.ofNat 32 (b0.toNat + 2 ^ 8 * b1.toNat + 2 ^ 16 * b2.toNat + 2 ^ 24 * b3.toNat)))
  ∧ (∀ base w : Nat, base % 4 = 0 → w < 65536 →
      bridge base (.load (base + 4 * w) 4) = some (.read (BitVec.ofNat 16 w)))
  ∧ (∀ w : Word, ∃ b0 b1 b2 b3, bytesOfWord w = [b0, b1, b2, b3] ∧ wordOfBytes b0 b1 b2 b3 = w)
end

