-- ==== Sys2Proof/Laws/Memory.lean ====
section
/-! SUPPORT. The laws of a memory: read after write, the canonical form, extensionality, and rows of consecutive cells. -/

namespace Sys2Proof.Machine

variable {w : Nat}

@[simp] theorem Memory.read_nil (a : Nat) : Memory.read ([] : Memory w) a = none := rfl

theorem Memory.read_cons (k : Nat) (v : BitVec w) (m : Memory w) (a : Nat) :
    Memory.read ((k, v) :: m) a = if k = a then some v else Memory.read m a := rfl

@[simp] theorem Memory.read_write_self (m : Memory w) (a : Nat) (x : BitVec w) :
    Memory.read (Memory.write m a x) a = some x := by
  induction m with
  | nil => simp [Memory.write, read_cons]
  | cons kv m ih =>
    obtain ⟨k, v⟩ := kv
    simp only [Memory.write]
    split
    · simp [read_cons]
    · split
      · simp [read_cons]
      · rw [read_cons, if_neg (by omega), ih]

theorem Memory.read_write_of_ne (m : Memory w) {a b : Nat} (x : BitVec w) (h : b ≠ a) :
    Memory.read (Memory.write m a x) b = Memory.read m b := by
  induction m with
  | nil => simp [Memory.write, read_cons, Ne.symm h]
  | cons kv m ih =>
    obtain ⟨k, v⟩ := kv
    simp only [Memory.write]
    split
    · rw [read_cons, if_neg (Ne.symm h)]
    · split
      · rename_i hk
        rw [read_cons, if_neg (Ne.symm h), read_cons, if_neg (by omega)]
      · rw [read_cons, read_cons, ih]

theorem Memory.read_write (m : Memory w) (a b : Nat) (x : BitVec w) :
    Memory.read (Memory.write m a x) b = if b = a then some x else Memory.read m b := by
  by_cases h : b = a
  · subst h; simp
  · simp [h, read_write_of_ne]

/-! ## The canonical form -/

theorem Memory.wf_cons_iff (k : Nat) (v : BitVec w) (m : Memory w) :
    Memory.wf ((k, v) :: m) = true ↔ (∀ kv ∈ m.head?, k < kv.1) ∧ Memory.wf m = true := by
  cases m with
  | nil => simp [Memory.wf]
  | cons kv m => obtain ⟨k', v'⟩ := kv; simp [Memory.wf]

theorem Memory.head?_write_ge (m : Memory w) (a k : Nat) (x : BitVec w) (ha : k < a)
    (h : ∀ kv ∈ m.head?, k < kv.1) : ∀ kv ∈ (Memory.write m a x).head?, k < kv.1 := by
  cases m with
  | nil => simpa [Memory.write] using ha
  | cons kv m =>
    obtain ⟨k', v'⟩ := kv
    simp only [Memory.write]
    split
    · simpa using ha
    · split
      · simpa using ha
      · simpa using h

/-- A write keeps the canonical form. -/
theorem Memory.wf_write (m : Memory w) (a : Nat) (x : BitVec w) (h : Memory.wf m = true) :
    Memory.wf (Memory.write m a x) = true := by
  induction m with
  | nil => rfl
  | cons kv m ih =>
    obtain ⟨k, v⟩ := kv
    obtain ⟨hk, hm⟩ := (wf_cons_iff k v m).mp h
    simp only [Memory.write]
    split
    · rename_i hlt
      exact (wf_cons_iff _ _ _).mpr ⟨by simpa using hlt, h⟩
    · split
      · rename_i heq
        subst heq
        exact (wf_cons_iff _ _ _).mpr ⟨hk, hm⟩
      · exact (wf_cons_iff _ _ _).mpr ⟨head?_write_ge m a k x (by omega) hk, ih hm⟩

/-- Writing a row keeps the canonical form. -/
theorem Memory.wf_writeRow (vs : List (BitVec w)) : ∀ (m : Memory w) (a : Nat), Memory.wf m = true →
    Memory.wf (Memory.writeRow m a vs) = true := by
  induction vs with
  | nil => intro m a h; exact h
  | cons v vs ih => intro m a h; exact ih _ _ (wf_write m a v h)

theorem Memory.read_eq_none_of_lt_head {m : Memory w} (h : Memory.wf m = true) {a : Nat}
    (ha : ∀ kv ∈ m.head?, a < kv.1) : Memory.read m a = none := by
  induction m with
  | nil => rfl
  | cons kv m ih =>
    obtain ⟨k, v⟩ := kv
    obtain ⟨hk, hm⟩ := (wf_cons_iff k v m).mp h
    have hak : a < k := by simpa using ha
    rw [read_cons, if_neg (by omega)]
    exact ih hm fun kv hkv => Nat.lt_trans hak (hk kv hkv)

/-- Canonical memories that read alike are the same list. -/
theorem Memory.ext_of_wf {m m' : Memory w} (h : Memory.wf m = true) (h' : Memory.wf m' = true)
    (hr : ∀ a, Memory.read m a = Memory.read m' a) : m = m' := by
  induction m generalizing m' with
  | nil =>
    cases m' with
    | nil => rfl
    | cons kv' m' => obtain ⟨k', v'⟩ := kv'; have := hr k'; simp [read_cons] at this
  | cons kv m ih =>
    obtain ⟨k, v⟩ := kv
    obtain ⟨hk, hm⟩ := (wf_cons_iff k v m).mp h
    cases m' with
    | nil => have := hr k; simp [read_cons] at this
    | cons kv' m' =>
      obtain ⟨k', v'⟩ := kv'
      obtain ⟨hk', hm'⟩ := (wf_cons_iff k' v' m').mp h'
      have hkk : k = k' := by
        rcases Nat.lt_trichotomy k k' with hlt | heq | hgt
        · have h1 := hr k
          rw [read_cons, if_pos rfl, read_cons, if_neg (by omega),
            read_eq_none_of_lt_head hm' fun kv hkv => Nat.lt_trans hlt (hk' kv hkv)] at h1
          simp at h1
        · exact heq
        · have h1 := hr k'
          rw [read_cons, if_neg (by omega), read_eq_none_of_lt_head hm fun kv hkv => Nat.lt_trans hgt (hk kv hkv),
            read_cons, if_pos rfl] at h1
          simp at h1
      subst hkk
      have hv : v = v' := by simpa [read_cons] using hr k
      subst hv
      rw [ih hm hm']
      intro a
      by_cases hak : a = k
      · subst hak
        rw [read_eq_none_of_lt_head hm hk, read_eq_none_of_lt_head hm' hk']
      · have := hr a
        rwa [read_cons, if_neg (Ne.symm hak), read_cons, if_neg (Ne.symm hak)] at this

/-! ## Rows -/

/-- What a row write does to every cell. -/
theorem Memory.read_writeRow (vs : List (BitVec w)) : ∀ (m : Memory w) (a b : Nat),
    Memory.read (Memory.writeRow m a vs) b =
      if a ≤ b ∧ b < a + vs.length then vs[b - a]? else Memory.read m b := by
  induction vs with
  | nil =>
    intro m a b
    have : ¬ (a ≤ b ∧ b < a + ([] : List (BitVec w)).length) := by simp
    rw [if_neg this]; rfl
  | cons v vs ih =>
    intro m a b
    rw [Memory.writeRow, ih, read_write]
    by_cases hb : b = a
    · subst hb; simp
    · by_cases hin : a + 1 ≤ b ∧ b < a + 1 + vs.length
      · have h1 : a ≤ b ∧ b < a + (v :: vs).length := ⟨by omega, by simp only [List.length_cons]; omega⟩
        rw [if_pos hin, if_pos h1]
        have : b - a = (b - (a + 1)) + 1 := by omega
        rw [this, List.getElem?_cons_succ]
      · have h1 : ¬ (a ≤ b ∧ b < a + (v :: vs).length) := by simp only [List.length_cons]; omega
        rw [if_neg hin, if_neg hb, if_neg h1]

/-- Cells outside the row keep their values. -/
theorem Memory.read_writeRow_of_outside (vs : List (BitVec w)) (m : Memory w) {a b : Nat}
    (h : ¬ (a ≤ b ∧ b < a + vs.length)) : Memory.read (Memory.writeRow m a vs) b = Memory.read m b := by
  rw [read_writeRow, if_neg h]

/-- A row is read exactly when every cell of it is written, and then it lists the cells in order. -/
theorem Memory.readRow_eq_some_iff (m : Memory w) (n : Nat) : ∀ (a : Nat) (vs : List (BitVec w)),
    Memory.readRow m a n = some vs ↔ vs.length = n ∧ ∀ i, i < n → Memory.read m (a + i) = vs[i]? := by
  induction n with
  | zero =>
    intro a vs
    simp only [Memory.readRow, Option.some.injEq]
    constructor
    · rintro rfl; simp
    · rintro ⟨h, -⟩; exact (List.length_eq_zero_iff.mp h).symm
  | succ n ih =>
    intro a vs
    constructor
    · intro h
      simp only [Memory.readRow] at h
      split at h
      · rename_i v vs' hv hvs
        obtain rfl : v :: vs' = vs := by simpa using h
        obtain ⟨hl, hr⟩ := (ih (a + 1) vs').mp hvs
        refine ⟨by simp [hl], fun i hi => ?_⟩
        cases i with
        | zero => simpa using hv
        | succ i =>
          have := hr i (by omega)
          rw [List.getElem?_cons_succ, ← this]
          congr 1; omega
      · simp at h
    · rintro ⟨hl, hr⟩
      cases vs with
      | nil => simp at hl
      | cons v vs =>
        have h0 : Memory.read m a = some v := by simpa using hr 0 (by omega)
        have h1 : Memory.readRow m (a + 1) n = some vs := (ih (a + 1) vs).mpr
          ⟨by simpa using hl, fun i hi => by
            have := hr (i + 1) (by omega)
            rw [List.getElem?_cons_succ] at this
            rw [← this]; congr 1; omega⟩
        simp [Memory.readRow, h0, h1]

theorem Memory.length_of_readRow {m : Memory w} {a n : Nat} {vs : List (BitVec w)}
    (h : Memory.readRow m a n = some vs) : vs.length = n :=
  ((readRow_eq_some_iff m n a vs).mp h).1

theorem Memory.read_of_readRow {m : Memory w} {a n : Nat} {vs : List (BitVec w)}
    (h : Memory.readRow m a n = some vs) {i : Nat} (hi : i < n) : Memory.read m (a + i) = vs[i]? :=
  ((readRow_eq_some_iff m n a vs).mp h).2 i hi

/-- A row of written cells, given cell by cell, is read as that list. -/
theorem Memory.readRow_of_cells (m : Memory w) (a n : Nat) (f : Nat → BitVec w)
    (h : ∀ i, i < n → Memory.read m (a + i) = some (f i)) :
    Memory.readRow m a n = some ((List.range n).map f) := by
  refine (readRow_eq_some_iff m n a _).mpr ⟨by simp, fun i hi => ?_⟩
  rw [h i hi]; simp [hi]

/-- One unwritten cell, and the row is not read. -/
theorem Memory.readRow_eq_none {m : Memory w} {a n i : Nat} (hi : i < n) (h : Memory.read m (a + i) = none) :
    Memory.readRow m a n = none := by
  cases hr : Memory.readRow m a n with
  | none => rfl
  | some vs =>
    have h1 := read_of_readRow hr hi
    have h2 := length_of_readRow hr
    rw [h] at h1
    rw [eq_comm, List.getElem?_eq_none_iff] at h1
    omega

/-- A property of addresses and values that the written cells have, the memory keeps. -/
theorem Memory.all_write {p : Nat × BitVec w → Bool} {m : Memory w} (a : Nat) (x : BitVec w) (h : m.all p = true)
    (hx : p (a, x) = true) : List.all (Memory.write m a x) p = true := by
  induction m with
  | nil => simp [Memory.write, hx]
  | cons kv m ih =>
    obtain ⟨k, v⟩ := kv
    rw [List.all_cons, Bool.and_eq_true] at h
    simp only [Memory.write]
    split
    · simp [hx, h.1, h.2]
    · split
      · simp [hx, h.2]
      · simp [h.1, ih h.2]

theorem Memory.all_writeRow {p : Nat × BitVec w → Bool} (vs : List (BitVec w)) : ∀ (m : Memory w) (a : Nat),
    m.all p = true → (∀ i x, i < vs.length → p (a + i, x) = true) →
    List.all (Memory.writeRow m a vs) p = true := by
  induction vs with
  | nil => intro m a h _; exact h
  | cons v vs ih =>
    intro m a h hx
    refine ih _ _ (all_write a v h (by simpa using hx 0 v (by simp))) fun i x hi => ?_
    have := hx (i + 1) x (by simpa using hi)
    rwa [show a + 1 + i = a + (i + 1) by omega]

end Sys2Proof.Machine
end

