-- ==== Sys2Proof/Laws/State.lean ====
section
/-! SUPPORT. One lemma per field and update: what each named state update does to each field of State. -/

namespace Sys2Proof.Machine

/-! A host read's answer changes `results` alone (20_memory.md R62). -/

@[simp] theorem answer_cfg (s : State) (v : Word) : (s.answer v).cfg = s.cfg := rfl
@[simp] theorem answer_phase (s : State) (v : Word) : (s.answer v).phase = s.phase := rfl
@[simp] theorem answer_fcode (s : State) (v : Word) : (s.answer v).fcode = s.fcode := rfl
@[simp] theorem answer_fwe (s : State) (v : Word) : (s.answer v).fwe = s.fwe := rfl
@[simp] theorem answer_faddr (s : State) (v : Word) : (s.answer v).faddr = s.faddr := rfl
@[simp] theorem answer_fdata (s : State) (v : Word) : (s.answer v).fdata = s.fdata := rfl
@[simp] theorem answer_cpufeat (s : State) (v : Word) : (s.answer v).cpufeat = s.cpufeat := rfl
@[simp] theorem answer_cqm (s : State) (v : Word) : (s.answer v).cqm = s.cqm := rfl
@[simp] theorem answer_qsel (s : State) (v : Word) : (s.answer v).qsel = s.qsel := rfl
@[simp] theorem answer_dqsel (s : State) (v : Word) : (s.answer v).dqsel = s.dqsel := rfl
@[simp] theorem answer_mf (s : State) (v : Word) : (s.answer v).mf = s.mf := rfl
@[simp] theorem answer_bias (s : State) (v : Word) : (s.answer v).bias = s.bias := rfl
@[simp] theorem answer_dqmf (s : State) (v : Word) : (s.answer v).dqmf = s.dqmf := rfl
@[simp] theorem answer_blk (s : State) (v : Word) : (s.answer v).blk = s.blk := rfl
@[simp] theorem answer_nz (s : State) (v : Word) : (s.answer v).nz = s.nz := rfl
@[simp] theorem answer_pending (s : State) (v : Word) : (s.answer v).pending = s.pending := rfl
@[simp] theorem answer_results (s : State) (v : Word) : (s.answer v).results = s.results ++ [v] := rfl
@[simp] theorem answer_resets (s : State) (v : Word) : (s.answer v).resets = s.resets := rfl
@[simp] theorem answer_modelFault (s : State) (v : Word) : (s.answer v).modelFault = s.modelFault := rfl

/-! Writing a flag changes `nz` alone. -/

@[simp] theorem setNz_cfg (s : State) (ch : Nat) (b : Bool) : (s.setNz ch b).cfg = s.cfg := rfl
@[simp] theorem setNz_phase (s : State) (ch : Nat) (b : Bool) : (s.setNz ch b).phase = s.phase := rfl
@[simp] theorem setNz_fcode (s : State) (ch : Nat) (b : Bool) : (s.setNz ch b).fcode = s.fcode := rfl
@[simp] theorem setNz_fwe (s : State) (ch : Nat) (b : Bool) : (s.setNz ch b).fwe = s.fwe := rfl
@[simp] theorem setNz_faddr (s : State) (ch : Nat) (b : Bool) : (s.setNz ch b).faddr = s.faddr := rfl
@[simp] theorem setNz_fdata (s : State) (ch : Nat) (b : Bool) : (s.setNz ch b).fdata = s.fdata := rfl
@[simp] theorem setNz_cpufeat (s : State) (ch : Nat) (b : Bool) : (s.setNz ch b).cpufeat = s.cpufeat := rfl
@[simp] theorem setNz_cqm (s : State) (ch : Nat) (b : Bool) : (s.setNz ch b).cqm = s.cqm := rfl
@[simp] theorem setNz_qsel (s : State) (ch : Nat) (b : Bool) : (s.setNz ch b).qsel = s.qsel := rfl
@[simp] theorem setNz_dqsel (s : State) (ch : Nat) (b : Bool) : (s.setNz ch b).dqsel = s.dqsel := rfl
@[simp] theorem setNz_mf (s : State) (ch : Nat) (b : Bool) : (s.setNz ch b).mf = s.mf := rfl
@[simp] theorem setNz_bias (s : State) (ch : Nat) (b : Bool) : (s.setNz ch b).bias = s.bias := rfl
@[simp] theorem setNz_dqmf (s : State) (ch : Nat) (b : Bool) : (s.setNz ch b).dqmf = s.dqmf := rfl
@[simp] theorem setNz_blk (s : State) (ch : Nat) (b : Bool) : (s.setNz ch b).blk = s.blk := rfl
@[simp] theorem setNz_nz (s : State) (ch : Nat) (b : Bool) : (s.setNz ch b).nz = s.nz.setIfInBounds ch b := rfl
@[simp] theorem setNz_pending (s : State) (ch : Nat) (b : Bool) : (s.setNz ch b).pending = s.pending := rfl
@[simp] theorem setNz_results (s : State) (ch : Nat) (b : Bool) : (s.setNz ch b).results = s.results := rfl
@[simp] theorem setNz_resets (s : State) (ch : Nat) (b : Bool) : (s.setNz ch b).resets = s.resets := rfl
@[simp] theorem setNz_modelFault (s : State) (ch : Nat) (b : Bool) : (s.setNz ch b).modelFault = s.modelFault := rfl

/-! Writing a block back changes `blk` alone. -/

@[simp] theorem storeBlk_cfg (s : State) (ch : Nat) (vs : List Coef) : (storeBlk s ch vs).cfg = s.cfg := rfl
@[simp] theorem storeBlk_phase (s : State) (ch : Nat) (vs : List Coef) : (storeBlk s ch vs).phase = s.phase := rfl
@[simp] theorem storeBlk_fcode (s : State) (ch : Nat) (vs : List Coef) : (storeBlk s ch vs).fcode = s.fcode := rfl
@[simp] theorem storeBlk_fwe (s : State) (ch : Nat) (vs : List Coef) : (storeBlk s ch vs).fwe = s.fwe := rfl
@[simp] theorem storeBlk_faddr (s : State) (ch : Nat) (vs : List Coef) : (storeBlk s ch vs).faddr = s.faddr := rfl
@[simp] theorem storeBlk_fdata (s : State) (ch : Nat) (vs : List Coef) : (storeBlk s ch vs).fdata = s.fdata := rfl
@[simp] theorem storeBlk_cpufeat (s : State) (ch : Nat) (vs : List Coef) : (storeBlk s ch vs).cpufeat = s.cpufeat := rfl
@[simp] theorem storeBlk_cqm (s : State) (ch : Nat) (vs : List Coef) : (storeBlk s ch vs).cqm = s.cqm := rfl
@[simp] theorem storeBlk_qsel (s : State) (ch : Nat) (vs : List Coef) : (storeBlk s ch vs).qsel = s.qsel := rfl
@[simp] theorem storeBlk_dqsel (s : State) (ch : Nat) (vs : List Coef) : (storeBlk s ch vs).dqsel = s.dqsel := rfl
@[simp] theorem storeBlk_mf (s : State) (ch : Nat) (vs : List Coef) : (storeBlk s ch vs).mf = s.mf := rfl
@[simp] theorem storeBlk_bias (s : State) (ch : Nat) (vs : List Coef) : (storeBlk s ch vs).bias = s.bias := rfl
@[simp] theorem storeBlk_dqmf (s : State) (ch : Nat) (vs : List Coef) : (storeBlk s ch vs).dqmf = s.dqmf := rfl
@[simp] theorem storeBlk_blk (s : State) (ch : Nat) (vs : List Coef) : (storeBlk s ch vs).blk = s.blk.writeRow (blkAddr ch 0) vs := rfl
@[simp] theorem storeBlk_nz (s : State) (ch : Nat) (vs : List Coef) : (storeBlk s ch vs).nz = s.nz := rfl
@[simp] theorem storeBlk_pending (s : State) (ch : Nat) (vs : List Coef) : (storeBlk s ch vs).pending = s.pending := rfl
@[simp] theorem storeBlk_results (s : State) (ch : Nat) (vs : List Coef) : (storeBlk s ch vs).results = s.results := rfl
@[simp] theorem storeBlk_resets (s : State) (ch : Nat) (vs : List Coef) : (storeBlk s ch vs).resets = s.resets := rfl
@[simp] theorem storeBlk_modelFault (s : State) (ch : Nat) (vs : List Coef) : (storeBlk s ch vs).modelFault = s.modelFault := rfl

/-! Reporting `M_UNINIT` changes `modelFault` alone (10_state.md R43). -/

@[simp] theorem reportUninit_cfg (s : State) (b : Bool) : (s.reportUninit b).cfg = s.cfg := rfl
@[simp] theorem reportUninit_phase (s : State) (b : Bool) : (s.reportUninit b).phase = s.phase := rfl
@[simp] theorem reportUninit_fcode (s : State) (b : Bool) : (s.reportUninit b).fcode = s.fcode := rfl
@[simp] theorem reportUninit_fwe (s : State) (b : Bool) : (s.reportUninit b).fwe = s.fwe := rfl
@[simp] theorem reportUninit_faddr (s : State) (b : Bool) : (s.reportUninit b).faddr = s.faddr := rfl
@[simp] theorem reportUninit_fdata (s : State) (b : Bool) : (s.reportUninit b).fdata = s.fdata := rfl
@[simp] theorem reportUninit_cpufeat (s : State) (b : Bool) : (s.reportUninit b).cpufeat = s.cpufeat := rfl
@[simp] theorem reportUninit_cqm (s : State) (b : Bool) : (s.reportUninit b).cqm = s.cqm := rfl
@[simp] theorem reportUninit_qsel (s : State) (b : Bool) : (s.reportUninit b).qsel = s.qsel := rfl
@[simp] theorem reportUninit_dqsel (s : State) (b : Bool) : (s.reportUninit b).dqsel = s.dqsel := rfl
@[simp] theorem reportUninit_mf (s : State) (b : Bool) : (s.reportUninit b).mf = s.mf := rfl
@[simp] theorem reportUninit_bias (s : State) (b : Bool) : (s.reportUninit b).bias = s.bias := rfl
@[simp] theorem reportUninit_dqmf (s : State) (b : Bool) : (s.reportUninit b).dqmf = s.dqmf := rfl
@[simp] theorem reportUninit_blk (s : State) (b : Bool) : (s.reportUninit b).blk = s.blk := rfl
@[simp] theorem reportUninit_nz (s : State) (b : Bool) : (s.reportUninit b).nz = s.nz := rfl
@[simp] theorem reportUninit_pending (s : State) (b : Bool) : (s.reportUninit b).pending = s.pending := rfl
@[simp] theorem reportUninit_results (s : State) (b : Bool) : (s.reportUninit b).results = s.results := rfl
@[simp] theorem reportUninit_resets (s : State) (b : Bool) : (s.reportUninit b).resets = s.resets := rfl
@[simp] theorem reportUninit_modelFault (s : State) (b : Bool) : (s.reportUninit b).modelFault = bif b then some .mUninit else s.modelFault := rfl
@[simp] theorem reportUninit_false (s : State) : s.reportUninit false = s := rfl
@[simp] theorem reportUninit_nzOf (s : State) (b : Bool) (ch : Nat) : (s.reportUninit b).nzOf ch = s.nzOf ch := rfl
@[simp] theorem reportUninit_blkAt (s : State) (b : Bool) (a : Nat) : (s.reportUninit b).blkAt a = s.blkAt a := rfl

/-! Fault entry writes the four fault registers and `phase` (60_exceptions.md R203). -/

@[simp] theorem raiseFault_cfg (code : FaultCode) (a : Addr) (d : Word) (w : Bool) (s : State) : (raiseFault code a d w s).cfg = s.cfg := rfl
@[simp] theorem raiseFault_phase (code : FaultCode) (a : Addr) (d : Word) (w : Bool) (s : State) : (raiseFault code a d w s).phase = .fault := rfl
@[simp] theorem raiseFault_fcode (code : FaultCode) (a : Addr) (d : Word) (w : Bool) (s : State) : (raiseFault code a d w s).fcode = code := rfl
@[simp] theorem raiseFault_fwe (code : FaultCode) (a : Addr) (d : Word) (w : Bool) (s : State) : (raiseFault code a d w s).fwe = w := rfl
@[simp] theorem raiseFault_faddr (code : FaultCode) (a : Addr) (d : Word) (w : Bool) (s : State) : (raiseFault code a d w s).faddr = a := rfl
@[simp] theorem raiseFault_fdata (code : FaultCode) (a : Addr) (d : Word) (w : Bool) (s : State) : (raiseFault code a d w s).fdata = d := rfl
@[simp] theorem raiseFault_cpufeat (code : FaultCode) (a : Addr) (d : Word) (w : Bool) (s : State) : (raiseFault code a d w s).cpufeat = s.cpufeat := rfl
@[simp] theorem raiseFault_cqm (code : FaultCode) (a : Addr) (d : Word) (w : Bool) (s : State) : (raiseFault code a d w s).cqm = s.cqm := rfl
@[simp] theorem raiseFault_qsel (code : FaultCode) (a : Addr) (d : Word) (w : Bool) (s : State) : (raiseFault code a d w s).qsel = s.qsel := rfl
@[simp] theorem raiseFault_dqsel (code : FaultCode) (a : Addr) (d : Word) (w : Bool) (s : State) : (raiseFault code a d w s).dqsel = s.dqsel := rfl
@[simp] theorem raiseFault_mf (code : FaultCode) (a : Addr) (d : Word) (w : Bool) (s : State) : (raiseFault code a d w s).mf = s.mf := rfl
@[simp] theorem raiseFault_bias (code : FaultCode) (a : Addr) (d : Word) (w : Bool) (s : State) : (raiseFault code a d w s).bias = s.bias := rfl
@[simp] theorem raiseFault_dqmf (code : FaultCode) (a : Addr) (d : Word) (w : Bool) (s : State) : (raiseFault code a d w s).dqmf = s.dqmf := rfl
@[simp] theorem raiseFault_blk (code : FaultCode) (a : Addr) (d : Word) (w : Bool) (s : State) : (raiseFault code a d w s).blk = s.blk := rfl
@[simp] theorem raiseFault_nz (code : FaultCode) (a : Addr) (d : Word) (w : Bool) (s : State) : (raiseFault code a d w s).nz = s.nz := rfl
@[simp] theorem raiseFault_pending (code : FaultCode) (a : Addr) (d : Word) (w : Bool) (s : State) : (raiseFault code a d w s).pending = s.pending := rfl
@[simp] theorem raiseFault_results (code : FaultCode) (a : Addr) (d : Word) (w : Bool) (s : State) : (raiseFault code a d w s).results = s.results := rfl
@[simp] theorem raiseFault_resets (code : FaultCode) (a : Addr) (d : Word) (w : Bool) (s : State) : (raiseFault code a d w s).resets = s.resets := rfl
@[simp] theorem raiseFault_modelFault (code : FaultCode) (a : Addr) (d : Word) (w : Bool) (s : State) : (raiseFault code a d w s).modelFault = s.modelFault := rfl

/-! The fault entry of a command (10_state.md R28, R29). -/

@[simp] theorem raiseCommand_cfg (code : FaultCode) (i : Instr) (s : State) : (raiseCommand code i s).cfg = s.cfg := rfl
@[simp] theorem raiseCommand_phase (code : FaultCode) (i : Instr) (s : State) : (raiseCommand code i s).phase = .fault := rfl
@[simp] theorem raiseCommand_fcode (code : FaultCode) (i : Instr) (s : State) : (raiseCommand code i s).fcode = code := rfl
@[simp] theorem raiseCommand_fwe (code : FaultCode) (i : Instr) (s : State) : (raiseCommand code i s).fwe = true := rfl
@[simp] theorem raiseCommand_faddr (code : FaultCode) (i : Instr) (s : State) : (raiseCommand code i s).faddr = cmdAddr := rfl
@[simp] theorem raiseCommand_fdata (code : FaultCode) (i : Instr) (s : State) : (raiseCommand code i s).fdata = encode i := rfl
@[simp] theorem raiseCommand_cpufeat (code : FaultCode) (i : Instr) (s : State) : (raiseCommand code i s).cpufeat = s.cpufeat := rfl
@[simp] theorem raiseCommand_cqm (code : FaultCode) (i : Instr) (s : State) : (raiseCommand code i s).cqm = s.cqm := rfl
@[simp] theorem raiseCommand_qsel (code : FaultCode) (i : Instr) (s : State) : (raiseCommand code i s).qsel = s.qsel := rfl
@[simp] theorem raiseCommand_dqsel (code : FaultCode) (i : Instr) (s : State) : (raiseCommand code i s).dqsel = s.dqsel := rfl
@[simp] theorem raiseCommand_mf (code : FaultCode) (i : Instr) (s : State) : (raiseCommand code i s).mf = s.mf := rfl
@[simp] theorem raiseCommand_bias (code : FaultCode) (i : Instr) (s : State) : (raiseCommand code i s).bias = s.bias := rfl
@[simp] theorem raiseCommand_dqmf (code : FaultCode) (i : Instr) (s : State) : (raiseCommand code i s).dqmf = s.dqmf := rfl
@[simp] theorem raiseCommand_blk (code : FaultCode) (i : Instr) (s : State) : (raiseCommand code i s).blk = s.blk := rfl
@[simp] theorem raiseCommand_nz (code : FaultCode) (i : Instr) (s : State) : (raiseCommand code i s).nz = s.nz := rfl
@[simp] theorem raiseCommand_pending (code : FaultCode) (i : Instr) (s : State) : (raiseCommand code i s).pending = s.pending := rfl
@[simp] theorem raiseCommand_results (code : FaultCode) (i : Instr) (s : State) : (raiseCommand code i s).results = s.results := rfl
@[simp] theorem raiseCommand_resets (code : FaultCode) (i : Instr) (s : State) : (raiseCommand code i s).resets = s.resets := rfl
@[simp] theorem raiseCommand_modelFault (code : FaultCode) (i : Instr) (s : State) : (raiseCommand code i s).modelFault = s.modelFault := rfl

/-! `DISPATCH` writes `QSEL`, `DQSEL` and `PHASE` (42_dispatch.md R181). -/

@[simp] theorem runDispatch_cfg (s : State) : (runDispatch s).cfg = s.cfg := rfl
@[simp] theorem runDispatch_phase (s : State) : (runDispatch s).phase = .ready := rfl
@[simp] theorem runDispatch_fcode (s : State) : (runDispatch s).fcode = s.fcode := rfl
@[simp] theorem runDispatch_fwe (s : State) : (runDispatch s).fwe = s.fwe := rfl
@[simp] theorem runDispatch_faddr (s : State) : (runDispatch s).faddr = s.faddr := rfl
@[simp] theorem runDispatch_fdata (s : State) : (runDispatch s).fdata = s.fdata := rfl
@[simp] theorem runDispatch_cpufeat (s : State) : (runDispatch s).cpufeat = s.cpufeat := rfl
@[simp] theorem runDispatch_cqm (s : State) : (runDispatch s).cqm = s.cqm := rfl
@[simp] theorem runDispatch_qsel (s : State) : (runDispatch s).qsel = boundQuant s.cfg.val s.cpufeat := rfl
@[simp] theorem runDispatch_dqsel (s : State) : (runDispatch s).dqsel = boundDequant s.cfg.val s.cpufeat s.cqm := rfl
@[simp] theorem runDispatch_mf (s : State) : (runDispatch s).mf = s.mf := rfl
@[simp] theorem runDispatch_bias (s : State) : (runDispatch s).bias = s.bias := rfl
@[simp] theorem runDispatch_dqmf (s : State) : (runDispatch s).dqmf = s.dqmf := rfl
@[simp] theorem runDispatch_blk (s : State) : (runDispatch s).blk = s.blk := rfl
@[simp] theorem runDispatch_nz (s : State) : (runDispatch s).nz = s.nz := rfl
@[simp] theorem runDispatch_pending (s : State) : (runDispatch s).pending = s.pending := rfl
@[simp] theorem runDispatch_results (s : State) : (runDispatch s).results = s.results := rfl
@[simp] theorem runDispatch_resets (s : State) : (runDispatch s).resets = s.resets := rfl
@[simp] theorem runDispatch_modelFault (s : State) : (runDispatch s).modelFault = s.modelFault := rfl

/-! Reset puts the block's fields at their reset values and keeps the parameters and the host's fields (70_reset_and_hazards.md R240). -/

@[simp] theorem resetBlock_cfg (s : State) : (resetBlock s).cfg = s.cfg := rfl
@[simp] theorem resetBlock_phase (s : State) : (resetBlock s).phase = .config := rfl
@[simp] theorem resetBlock_fcode (s : State) : (resetBlock s).fcode = .none := rfl
@[simp] theorem resetBlock_fwe (s : State) : (resetBlock s).fwe = false := rfl
@[simp] theorem resetBlock_faddr (s : State) : (resetBlock s).faddr = 0 := rfl
@[simp] theorem resetBlock_fdata (s : State) : (resetBlock s).fdata = 0 := rfl
@[simp] theorem resetBlock_cpufeat (s : State) : (resetBlock s).cpufeat = 0 := rfl
@[simp] theorem resetBlock_cqm (s : State) : (resetBlock s).cqm = .flat := rfl
@[simp] theorem resetBlock_qsel (s : State) : (resetBlock s).qsel = baselineId s.cfg.val.catQ := rfl
@[simp] theorem resetBlock_dqsel (s : State) : (resetBlock s).dqsel = baselineId s.cfg.val.catDq := rfl
@[simp] theorem resetBlock_mf (s : State) : (resetBlock s).mf = [] := rfl
@[simp] theorem resetBlock_bias (s : State) : (resetBlock s).bias = [] := rfl
@[simp] theorem resetBlock_dqmf (s : State) : (resetBlock s).dqmf = [] := rfl
@[simp] theorem resetBlock_blk (s : State) : (resetBlock s).blk = [] := rfl
@[simp] theorem resetBlock_nz (s : State) : (resetBlock s).nz = Vector.replicate 16 false := rfl
@[simp] theorem resetBlock_pending (s : State) : (resetBlock s).pending = s.pending := rfl
@[simp] theorem resetBlock_results (s : State) : (resetBlock s).results = s.results := rfl
@[simp] theorem resetBlock_resets (s : State) : (resetBlock s).resets = s.resets + 1 := rfl
@[simp] theorem resetBlock_modelFault (s : State) : (resetBlock s).modelFault = s.modelFault := rfl

/-! A store to a location changes that location's field alone, and never the fields of the fault entry, the binding, the flags or the host. -/

@[simp] theorem storeLocation_cfg (l : Location) (d : Word) (s : State) : (storeLocation l d s).cfg = s.cfg := by
  cases l <;> rfl
@[simp] theorem storeLocation_phase (l : Location) (d : Word) (s : State) : (storeLocation l d s).phase = s.phase := by
  cases l <;> rfl
@[simp] theorem storeLocation_fcode (l : Location) (d : Word) (s : State) : (storeLocation l d s).fcode = s.fcode := by
  cases l <;> rfl
@[simp] theorem storeLocation_fwe (l : Location) (d : Word) (s : State) : (storeLocation l d s).fwe = s.fwe := by
  cases l <;> rfl
@[simp] theorem storeLocation_faddr (l : Location) (d : Word) (s : State) : (storeLocation l d s).faddr = s.faddr := by
  cases l <;> rfl
@[simp] theorem storeLocation_fdata (l : Location) (d : Word) (s : State) : (storeLocation l d s).fdata = s.fdata := by
  cases l <;> rfl
@[simp] theorem storeLocation_qsel (l : Location) (d : Word) (s : State) : (storeLocation l d s).qsel = s.qsel := by
  cases l <;> rfl
@[simp] theorem storeLocation_dqsel (l : Location) (d : Word) (s : State) : (storeLocation l d s).dqsel = s.dqsel := by
  cases l <;> rfl
@[simp] theorem storeLocation_nz (l : Location) (d : Word) (s : State) : (storeLocation l d s).nz = s.nz := by
  cases l <;> rfl
@[simp] theorem storeLocation_pending (l : Location) (d : Word) (s : State) : (storeLocation l d s).pending = s.pending := by
  cases l <;> rfl
@[simp] theorem storeLocation_results (l : Location) (d : Word) (s : State) : (storeLocation l d s).results = s.results := by
  cases l <;> rfl
@[simp] theorem storeLocation_resets (l : Location) (d : Word) (s : State) : (storeLocation l d s).resets = s.resets := by
  cases l <;> rfl
@[simp] theorem storeLocation_modelFault (l : Location) (d : Word) (s : State) : (storeLocation l d s).modelFault = s.modelFault := by
  cases l <;> rfl

/-! ## The flags -/

@[simp] theorem nzOf_setNz_self (s : State) (ch : Nat) (b : Bool) (h : ch < 16) : (s.setNz ch b).nzOf ch = b := by
  simp [State.nzOf, h]

theorem nzOf_setNz_of_ne (s : State) (b : Bool) {ch c : Nat} (h : c ≠ ch) : (s.setNz ch b).nzOf c = s.nzOf c := by
  simp [State.nzOf, Ne.symm h]

theorem nzOf_congr {s t : State} (h : t.nz = s.nz) (ch : Nat) : t.nzOf ch = s.nzOf ch := by
  simp [State.nzOf, h]

/-! ## The block registers: `blkAt` sees the cells of `blk` and, where nothing is written, the free values of this reset -/

theorem blkAt_of_read {s : State} {a : Nat} {v : Coef} (h : s.blk.read a = some v) : s.blkAt a = v := by
  simp [State.blkAt, h]

theorem blkAt_of_unwritten {s : State} {a : Nat} (h : s.blk.read a = none) : s.blkAt a = Config.freeBlk s.resets a := by
  simp [State.blkAt, h]

theorem blkAt_congr {s t : State} {a : Nat} (h : t.blk.read a = s.blk.read a) (hr : t.resets = s.resets) :
    t.blkAt a = s.blkAt a := by
  simp [State.blkAt, h, hr]

end Sys2Proof.Machine
end

