-- ==== Sys2Proof/Laws/Ops.lean ====
section
/-! SUPPORT. For each shared operation, once, everything it can do: the command checks, the two block commands, the host port and the step. -/

namespace Sys2Proof.Machine

/-! ## The commands -/

/-- Once the checks of 30_encoding.md R104 pass, the command runs. -/
theorem checkBlockCommand_of_accepted {i : Instr} {ch qp : Nat} {s : State} {run : State → Host.Outcome State Fault Refusal}
    (hp : s.phase = .ready) (hc : ch < s.nch) (hq : qp < 64) : checkBlockCommand i ch qp s run = run s := by
  simp [checkBlockCommand, hp, Nat.not_le.mpr hc, Nat.not_le.mpr hq]

/-- If a block command answers `next t`: it was ignored in FAULT phase, or it raised in CONFIG or READY, or it ran. -/
theorem checkBlockCommand_next {i : Instr} {ch qp : Nat} {s t : State} {run : State → Host.Outcome State Fault Refusal}
    (h : checkBlockCommand i ch qp s run = .next t) :
    (s.phase = .fault ∧ t = s)
    ∨ (s.phase ≠ .fault ∧ ∃ code, code ≠ .none ∧ code ≠ .badAddr ∧ t = raiseCommand code i s
        ∧ (code = .badPhase ∨ code = .badCh ∨ code = .qpRange))
    ∨ (s.phase = .ready ∧ ch < s.nch ∧ qp < 64 ∧ run s = .next t) := by
  unfold checkBlockCommand at h
  split at h
  · rename_i hp
    exact .inl ⟨hp, by simpa using h.symm⟩
  · rename_i hp
    exact .inr (.inl ⟨by simp [hp], .badPhase, by simp, by simp, by simpa using h.symm, by simp⟩)
  · rename_i hp
    split at h
    · exact .inr (.inl ⟨by simp [hp], .badCh, by simp, by simp, by simpa using h.symm, by simp⟩)
    · split at h
      · exact .inr (.inl ⟨by simp [hp], .qpRange, by simp, by simp, by simpa using h.symm, by simp⟩)
      · exact .inr (.inr ⟨hp, by omega, by omega, h⟩)

/-- Everything a `QUANT` that completes does (40_quant.md R131). -/
theorem runQuant_next_iff {ch qp : Nat} {s t : State} :
    runQuant ch qp s = .next t ↔
      ∃ ms fs, mfRow s qp = some ms ∧ biasRow s qp = some fs ∧ paccRow s.accw (blkRow s ch) ms = true
        ∧ t = ((storeBlk s ch (quantLevels (s.qtab qp) (blkRow s ch) ms fs)).setNz ch
            (nzFlag (quantLevels (s.qtab qp) (blkRow s ch) ms fs))).reportUninit (s.blkUnwritten ch) := by
  constructor
  · intro h
    simp only [runQuant] at h
    split at h
    · rename_i ms fs hm hf
      split at h
      · rename_i hpacc
        exact ⟨ms, fs, hm, hf, hpacc, by simpa using h.symm⟩
      · simp at h
    · simp at h
  · rintro ⟨ms, fs, hm, hf, hpacc, rfl⟩
    simp [runQuant, hm, hf, hpacc]

/-- Over written rows, a `QUANT` without `Pacc` stops: with `M_UNINIT` where it used an unwritten register, with `M_QOVF`
otherwise. -/
theorem runQuant_of_not_pacc {ch qp : Nat} {s : State} {ms : List Mult} {fs : List Bias} (hm : mfRow s qp = some ms)
    (hf : biasRow s qp = some fs) (hp : paccRow s.accw (blkRow s ch) ms = false) :
    runQuant ch qp s = .fault (bif s.blkUnwritten ch then .mUninit else .mQovf) := by
  simp [runQuant, hm, hf, hp]

/-- A `QUANT` stops with `M_UNINIT` exactly when one of its two rows is not written whole, or when a register of its block is
unwritten and a position is without `Pacc`. -/
theorem runQuant_eq_mUninit_iff {ch qp : Nat} {s : State} :
    runQuant ch qp s = .fault .mUninit ↔ mfRow s qp = none ∨ biasRow s qp = none
      ∨ (s.blkUnwritten ch = true ∧ ∃ ms, mfRow s qp = some ms ∧ paccRow s.accw (blkRow s ch) ms = false) := by
  unfold runQuant
  cases mfRow s qp <;> cases biasRow s qp <;> simp
  split <;> cases h : s.blkUnwritten ch <;> simp_all

/-- An unwritten register makes every outcome of a `QUANT` `M_UNINIT`: the stop's, or the one the next state reports. -/
theorem runQuant_of_blkUnwritten {ch qp : Nat} {s : State} (h : s.blkUnwritten ch = true) :
    runQuant ch qp s = .fault .mUninit ∨ ∃ t, runQuant ch qp s = .next t ∧ t.modelFault = some .mUninit := by
  unfold runQuant
  split
  · split
    · exact .inr ⟨_, rfl, by simp [h]⟩
    · exact .inl (by simp [h])
  · exact .inl rfl

/-- Everything a `DEQUANT` that completes does (41_dequant.md R161). -/
theorem runDequant_next_iff {ch qp : Nat} {s t : State} :
    runDequant ch qp s = .next t ↔
      ∃ gs, dqmfRow s qp = some gs
        ∧ t = (storeBlk s ch (dequantValues (s.shtab qp) (blkRow s ch) gs)).reportUninit (s.blkUnwritten ch) := by
  unfold runDequant
  cases dqmfRow s qp <;> simp [eq_comm]

/-- A `DEQUANT` stops with `M_UNINIT` exactly when its row is not written whole. -/
theorem runDequant_eq_mUninit_iff {ch qp : Nat} {s : State} :
    runDequant ch qp s = .fault .mUninit ↔ dqmfRow s qp = none := by
  unfold runDequant
  cases dqmfRow s qp <;> simp

theorem runDequant_of_blkUnwritten {ch qp : Nat} {s : State} (h : s.blkUnwritten ch = true) :
    runDequant ch qp s = .fault .mUninit ∨ ∃ t, runDequant ch qp s = .next t ∧ t.modelFault = some .mUninit := by
  unfold runDequant
  split
  · exact .inr ⟨_, rfl, by simp [h]⟩
  · exact .inl rfl

/-- A row has one cell per position. -/
@[simp] theorem length_blkRow (s : State) (ch : Nat) : (blkRow s ch).length = 64 := by simp [blkRow]

theorem length_of_mfRow {s : State} {qp : Nat} {ms : List Mult} (h : mfRow s qp = some ms) : ms.length = 64 :=
  Memory.length_of_readRow h

theorem length_of_biasRow {s : State} {qp : Nat} {fs : List Bias} (h : biasRow s qp = some fs) : fs.length = 64 :=
  Memory.length_of_readRow h

theorem length_of_dqmfRow {s : State} {qp : Nat} {gs : List Mult} (h : dqmfRow s qp = some gs) : gs.length = 64 :=
  Memory.length_of_readRow h

theorem length_quantLevels (q : Nat) (cs : List Coef) (ms : List Mult) (fs : List Bias) :
    (quantLevels q cs ms fs).length = min cs.length (min ms.length fs.length) := by
  simp [quantLevels]

theorem length_dequantValues (sh : Nat) (ls : List Coef) (gs : List Mult) :
    (dequantValues sh ls gs).length = min ls.length gs.length := by
  simp [dequantValues]

/-- The non-zero flag is set exactly when some level is not zero (40_quant.md R138). -/
theorem nzFlag_eq_true_iff (levels : List Coef) : nzFlag levels = true ↔ ∃ v ∈ levels, v ≠ 0 := by
  have key : ∀ (ls : List Coef) (acc : Coef),
      ls.foldl (fun acc level => acc ||| level) acc = 0 ↔ acc = 0 ∧ ∀ v ∈ ls, v = 0 := by
    intro ls
    induction ls with
    | nil => simp
    | cons v ls ih =>
      intro acc
      rw [List.foldl_cons, ih]
      simp [and_assoc]
  rw [nzFlag, decide_eq_true_eq, Ne, key]
  simp

/-! ## The host port -/

/-- What a legal store can do to the memories: a write at an address of the map. -/
theorem writeChecked_cases (a : Addr) (d : Word) (s : State) :
    (legal (location s.nch a) d = true ∧ writeChecked a d s = storeLocation (location s.nch a) d s)
    ∨ (legal (location s.nch a) d = false ∧ writeChecked a d s = raiseFault .range a d true s) := by
  cases h : legal (location s.nch a) d
  · exact .inr ⟨rfl, by simp [writeChecked, h]⟩
  · exact .inl ⟨rfl, by simp [writeChecked, h]⟩

/-- Only the unmapped locations are reserved. -/
theorem access_eq_reserved {l : Location} (h : access l = .reserved) : l = .unmapped := by
  cases l <;> simp_all [access]

/-- If a read answers `next t`: it returned a value, reporting the use of an unwritten register, or it raised `BADADDR` and
returned 0. -/
theorem hostRead_next {a : Addr} {s t : State} (h : hostRead a s = .next t) :
    (∃ v, t = (s.reportUninit (readsUnwritten s (location s.nch a))).answer v)
    ∨ (s.phase ≠ .fault ∧ access (location s.nch a) = .reserved ∧ t = (raiseFault .badAddr a 0 false s).answer 0) := by
  unfold hostRead at h
  split at h
  · rename_i hr
    split at h
    · refine .inl ⟨0, ?_⟩
      rw [access_eq_reserved hr]
      simpa [readsUnwritten] using h.symm
    · rename_i hp
      exact .inr ⟨hp, hr, by simpa using h.symm⟩
  · split at h
    · rename_i v _
      exact .inl ⟨v, by simpa using h.symm⟩
    · simp at h

/-- If a command answers `next t`: ignored in FAULT, or raised, or one of the three ran. -/
theorem exec_next {i : Instr} {s t : State} (h : exec i s = .next t) :
    (s.phase = .fault ∧ t = s)
    ∨ (s.phase ≠ .fault ∧ ∃ code, code ≠ .none ∧ code ≠ .badAddr ∧ t = raiseCommand code i s)
    ∨ (s.phase = .config ∧ i = .dispatch ∧ t = runDispatch s)
    ∨ (s.phase = .ready ∧ ∃ ch qp, i = .quant ch qp ∧ ch < s.nch ∧ qp < 64 ∧ runQuant ch qp s = .next t)
    ∨ (s.phase = .ready ∧ ∃ ch qp, i = .dequant ch qp ∧ ch < s.nch ∧ qp < 64 ∧ runDequant ch qp s = .next t) := by
  cases i with
  | dispatch =>
    simp only [exec, execDispatch] at h
    split at h
    · rename_i hp; exact .inl ⟨hp, by simpa using h.symm⟩
    · rename_i hp; exact .inr (.inl ⟨by simp [hp], .badPhase, by simp, by simp, by simpa using h.symm⟩)
    · rename_i hp; exact .inr (.inr (.inl ⟨hp, rfl, by simpa using h.symm⟩))
  | quant ch qp =>
    rcases checkBlockCommand_next h with h | ⟨hp, code, h1, h2, h3, -⟩ | ⟨hp, hc, hq, hr⟩
    · exact .inl h
    · exact .inr (.inl ⟨hp, code, h1, h2, h3⟩)
    · exact .inr (.inr (.inr (.inl ⟨hp, ch, qp, rfl, hc, hq, hr⟩)))
  | dequant ch qp =>
    rcases checkBlockCommand_next h with h | ⟨hp, code, h1, h2, h3, -⟩ | ⟨hp, hc, hq, hr⟩
    · exact .inl h
    · exact .inr (.inl ⟨hp, code, h1, h2, h3⟩)
    · exact .inr (.inr (.inr (.inr ⟨hp, ch, qp, rfl, hc, hq, hr⟩)))

/-- Only `CMD` is write-only. -/
theorem access_eq_writeOnly {l : Location} (h : access l = .writeOnly) : l = .cmd := by
  cases l <;> simp_all [access]

theorem globalLocation_eq_cmd {n : Nat} (h : globalLocation n = .cmd) : n = 8 := by
  unfold globalLocation at h
  split at h <;> simp_all

theorem windowLocation_ne_cmd (ch off : Nat) : windowLocation ch off ≠ .cmd := by
  unfold windowLocation
  split
  · simp
  · split <;> simp

/-- `CMD` is at `0x0008` alone (20_memory.md R61). -/
theorem location_eq_cmd {nch : Nat} {a : Addr} (h : location nch a = .cmd) : a = cmdAddr := by
  have : a.toNat = 8 := by
    unfold location at h
    simp only at h
    repeat' split at h
    all_goals first
      | exact globalLocation_eq_cmd h
      | exact absurd h (windowLocation_ne_cmd _ _)
      | simp at h
  exact BitVec.eq_of_toNat_eq (by rw [this]; rfl)

theorem location_cmdAddr (nch : Nat) : location nch cmdAddr = .cmd := rfl

/-- If a write answers `next t`: ignored in FAULT, raised with the write's own address and data, stored a legal value at a
location writable in this phase, or delivered a command. -/
theorem hostWrite_next {a : Addr} {d : Word} {s t : State} (h : hostWrite a d s = .next t) :
    (s.phase = .fault ∧ t = s)
    ∨ (s.phase ≠ .fault ∧ ∃ code, code ≠ .none ∧ t = raiseFault code a d true s
        ∧ (a ≠ cmdAddr → code = .badAddr ∨ code = .roWrite ∨ code = .frozen ∨ code = .range))
    ∨ (s.phase ≠ .fault ∧ legal (location s.nch a) d = true ∧ t = storeLocation (location s.nch a) d s
        ∧ ((access (location s.nch a) = .configOnly ∧ s.phase = .config) ∨ access (location s.nch a) = .readWrite))
    ∨ (s.phase ≠ .fault ∧ a = cmdAddr ∧ ∃ i, decode d = .ok i ∧ exec i s = .next t) := by
  unfold hostWrite at h
  split at h
  · rename_i hp; exact .inl ⟨hp, by simpa using h.symm⟩
  · rename_i hp
    split at h
    · exact .inr (.inl ⟨hp, .badAddr, by simp, by simpa using h.symm, by simp⟩)
    · exact .inr (.inl ⟨hp, .roWrite, by simp, by simpa using h.symm, by simp⟩)
    · rename_i hacc
      split at h
      · exact .inr (.inl ⟨hp, .frozen, by simp, by simpa using h.symm, by simp⟩)
      · rename_i hr
        have hcfg : s.phase = .config := by cases hph : s.phase <;> simp_all
        obtain rfl : writeChecked a d s = t := by simpa using h
        rcases writeChecked_cases a d s with ⟨hl, he⟩ | ⟨hl, he⟩
        · exact .inr (.inr (.inl ⟨hp, hl, he, .inl ⟨hacc, hcfg⟩⟩))
        · exact .inr (.inl ⟨hp, .range, by simp, he, by simp⟩)
    · rename_i hacc
      obtain rfl : writeChecked a d s = t := by simpa using h
      rcases writeChecked_cases a d s with ⟨hl, he⟩ | ⟨hl, he⟩
      · exact .inr (.inr (.inl ⟨hp, hl, he, .inr hacc⟩))
      · exact .inr (.inl ⟨hp, .range, by simp, he, by simp⟩)
    · rename_i hacc
      have ha : a = cmdAddr := location_eq_cmd (access_eq_writeOnly hacc)
      unfold execute at h
      split at h
      · exact .inr (.inl ⟨hp, .badCmd, by simp, by simpa [ha] using h.symm, fun hne => absurd ha hne⟩)
      · rename_i i hi
        exact .inr (.inr (.inr ⟨hp, ha, i, hi, h⟩))

/-! ## The step -/

/-- If a step answers `next t`: the host had nothing to do, or its next operation was served. -/
theorem step_next {s t : State} (h : step s = .next t) :
    (s.pending = [] ∧ t = s)
    ∨ ∃ op rest, s.pending = op :: rest ∧ hostOp op { s with pending := rest } = .next t := by
  unfold step serveHost at h
  split at h
  · rename_i hp; exact .inl ⟨hp, by simpa using h.symm⟩
  · rename_i op rest hp; exact .inr ⟨op, rest, hp, h⟩

/-- No command touches the host's operations and results, the parameters or the count of resets. -/
theorem exec_keeps_host {i : Instr} {s t : State} (h : exec i s = .next t) :
    t.pending = s.pending ∧ t.cfg = s.cfg ∧ t.results = s.results ∧ t.resets = s.resets := by
  rcases exec_next h with ⟨-, rfl⟩ | ⟨-, code, -, -, rfl⟩ | ⟨-, -, rfl⟩ | ⟨-, ch, qp, -, -, -, hr⟩ | ⟨-, ch, qp, -, -, -, hr⟩
  · simp
  · simp
  · simp
  · obtain ⟨ms, fs, -, -, -, rfl⟩ := runQuant_next_iff.mp hr; simp
  · obtain ⟨gs, -, rfl⟩ := runDequant_next_iff.mp hr; simp

/-- No host operation touches the host's coming operations or the parameters. -/
theorem hostOp_keeps_host {op : HostOp} {s t : State} (h : hostOp op s = .next t) :
    t.pending = s.pending ∧ t.cfg = s.cfg := by
  cases op with
  | read a => rcases hostRead_next h with ⟨v, rfl⟩ | ⟨-, -, rfl⟩ <;> simp
  | write a d =>
    rcases hostWrite_next h with ⟨-, rfl⟩ | ⟨-, code, -, rfl, -⟩ | ⟨-, -, rfl, -⟩ | ⟨-, -, i, -, h⟩
    · simp
    · simp
    · simp
    · exact ⟨(exec_keeps_host h).1, (exec_keeps_host h).2.1⟩
  | reset =>
    simp only [hostOp, Host.Outcome.next.injEq] at h
    subst h
    simp

end Sys2Proof.Machine
end

