-- ==== Sys2Proof/Laws/Port.lean ====
section
/-! SUPPORT. The address map read by number: which location an address names, and where a location stands (20_memory.md R61). -/

namespace Sys2Proof.Machine

theorem location_of_global {nch : Nat} {a : Addr} (h : a.toNat < 0x0100) :
    location nch a = globalLocation a.toNat := by
  simp [location, h]

theorem location_of_qtab {nch : Nat} {a : Addr} (h1 : 0x0100 ≤ a.toNat) (h2 : a.toNat < 0x0140) :
    location nch a = .qtab (a.toNat - 0x0100) := by
  simp [location, h2, Nat.not_lt.mpr h1]

theorem location_of_shtab {nch : Nat} {a : Addr} (h1 : 0x0140 ≤ a.toNat) (h2 : a.toNat < 0x0180) :
    location nch a = .shtab (a.toNat - 0x0140) := by
  unfold location; simp only
  repeat (first | rw [if_pos (by omega)] | rw [if_neg (by omega)])

theorem location_of_mf {nch : Nat} {a : Addr} (h1 : 0x1000 ≤ a.toNat) (h2 : a.toNat < 0x2000) :
    location nch a = .mf ((a.toNat - 0x1000) / 64) (a.toNat % 64) := by
  unfold location; simp only
  repeat (first | rw [if_pos (by omega)] | rw [if_neg (by omega)])

theorem location_of_bias {nch : Nat} {a : Addr} (h1 : 0x2000 ≤ a.toNat) (h2 : a.toNat < 0x3000) :
    location nch a = .bias ((a.toNat - 0x2000) / 64) (a.toNat % 64) := by
  unfold location; simp only
  repeat (first | rw [if_pos (by omega)] | rw [if_neg (by omega)])

theorem location_of_dqmf {nch : Nat} {a : Addr} (h1 : 0x3000 ≤ a.toNat) (h2 : a.toNat < 0x4000) :
    location nch a = .dqmf ((a.toNat - 0x3000) / 64) (a.toNat % 64) := by
  unfold location; simp only
  repeat (first | rw [if_pos (by omega)] | rw [if_neg (by omega)])

theorem location_of_window {nch : Nat} {a : Addr} (h1 : 0x4000 ≤ a.toNat) (h2 : a.toNat < 0x4000 + 0x100 * nch) :
    location nch a = windowLocation ((a.toNat - 0x4000) / 0x100) (a.toNat % 0x100) := by
  unfold location; simp only
  repeat (first | rw [if_pos (by omega)] | rw [if_neg (by omega)])

theorem location_of_hole {nch : Nat} {a : Addr} (h1 : 0x0180 ≤ a.toNat) (h2 : a.toNat < 0x1000) :
    location nch a = .unmapped := by
  unfold location; simp only
  repeat (first | rw [if_pos (by omega)] | rw [if_neg (by omega)])

theorem location_of_above {nch : Nat} {a : Addr} (h1 : 0x4000 + 0x100 * nch ≤ a.toNat) :
    location nch a = .unmapped := by
  unfold location; simp only
  repeat (first | rw [if_pos (by omega)] | rw [if_neg (by omega)])

/-- The cell a table location stands for is the cell at its own address. -/
theorem mfAddr_of_addr {n : Nat} (h1 : 0x1000 ≤ n) : mfAddr ((n - 0x1000) / 64) (n % 64) = n := by
  unfold mfAddr; omega

theorem biasAddr_of_addr {n : Nat} (h1 : 0x2000 ≤ n) : biasAddr ((n - 0x2000) / 64) (n % 64) = n := by
  unfold biasAddr; omega

theorem dqmfAddr_of_addr {n : Nat} (h1 : 0x3000 ≤ n) : dqmfAddr ((n - 0x3000) / 64) (n % 64) = n := by
  unfold dqmfAddr; omega

theorem blkAddr_of_addr {n : Nat} (h1 : 0x4000 ≤ n) : blkAddr ((n - 0x4000) / 0x100) (n % 0x100) = n := by
  unfold blkAddr; omega

theorem windowLocation_of_blk {ch off : Nat} (h : off < 64) : windowLocation ch off = .blk ch off := by
  simp [windowLocation, h]

theorem windowLocation_of_nz (ch : Nat) : windowLocation ch 64 = .nz ch := rfl

theorem windowLocation_of_hole {ch off : Nat} (h : 64 < off) : windowLocation ch off = .unmapped := by
  unfold windowLocation
  rw [if_neg (by omega), if_neg (by omega)]

/-- The address of a number below 64 Ki. -/
theorem toNat_addr {n : Nat} (h : n < 65536) : (BitVec.ofNat 16 n).toNat = n := by
  simp only [BitVec.toNat_ofNat]
  exact Nat.mod_eq_of_lt h

theorem location_mfAddr (nch : Nat) {qp i : Nat} (hq : qp < 64) (hi : i < 64) :
    location nch (BitVec.ofNat 16 (mfAddr qp i)) = .mf qp i := by
  unfold mfAddr
  have e := toNat_addr (n := 0x1000 + 64 * qp + i) (by omega)
  rw [location_of_mf (by omega) (by omega), e]
  congr 1 <;> omega

theorem location_biasAddr (nch : Nat) {qp i : Nat} (hq : qp < 64) (hi : i < 64) :
    location nch (BitVec.ofNat 16 (biasAddr qp i)) = .bias qp i := by
  unfold biasAddr
  have e := toNat_addr (n := 0x2000 + 64 * qp + i) (by omega)
  rw [location_of_bias (by omega) (by omega), e]
  congr 1 <;> omega

theorem location_dqmfAddr (nch : Nat) {qp i : Nat} (hq : qp < 64) (hi : i < 64) :
    location nch (BitVec.ofNat 16 (dqmfAddr qp i)) = .dqmf qp i := by
  unfold dqmfAddr
  have e := toNat_addr (n := 0x3000 + 64 * qp + i) (by omega)
  rw [location_of_dqmf (by omega) (by omega), e]
  congr 1 <;> omega

/-- The operand ranges of a location's cell: QPs and positions below 64, channels below `nch`. -/
def cellInRange (nch : Nat) : Location → Prop
  | .mf qp i => qp < 64 ∧ i < 64
  | .bias qp i => qp < 64 ∧ i < 64
  | .dqmf qp i => qp < 64 ∧ i < 64
  | .blk ch i => ch < nch ∧ i < 64
  | _ => True

/-- Every address of the map names a cell within the ranges. -/
theorem location_inRange (nch : Nat) (a : Addr) : cellInRange nch (location nch a) := by
  rcases Nat.lt_or_ge a.toNat 0x100 with h | h
  · rw [location_of_global h]
    unfold globalLocation
    split <;> trivial
  rcases Nat.lt_or_ge a.toNat 0x140 with h1 | h1
  · rw [location_of_qtab h h1]; trivial
  rcases Nat.lt_or_ge a.toNat 0x180 with h2 | h2
  · rw [location_of_shtab h1 h2]; trivial
  rcases Nat.lt_or_ge a.toNat 0x1000 with h3 | h3
  · rw [location_of_hole h2 h3]; trivial
  rcases Nat.lt_or_ge a.toNat 0x2000 with h4 | h4
  · rw [location_of_mf h3 h4]; simp only [cellInRange]; omega
  rcases Nat.lt_or_ge a.toNat 0x3000 with h5 | h5
  · rw [location_of_bias h4 h5]; simp only [cellInRange]; omega
  rcases Nat.lt_or_ge a.toNat 0x4000 with h6 | h6
  · rw [location_of_dqmf h5 h6]; simp only [cellInRange]; omega
  rcases Nat.lt_or_ge a.toNat (0x4000 + 0x100 * nch) with h7 | h7
  · rw [location_of_window h6 h7]
    unfold windowLocation
    split
    · simp only [cellInRange]; omega
    · split <;> trivial
  · rw [location_of_above h7]; trivial

/-- A location names a `BLK` register exactly at that register's address, in the window of a channel that exists. -/
theorem location_eq_blk {nch : Nat} {a : Addr} {ch i : Nat} (h : location nch a = .blk ch i) :
    0x4000 ≤ a.toNat ∧ a.toNat < 0x4000 + 0x100 * nch ∧ a.toNat % 0x100 < 64 ∧ blkAddr ch i = a.toNat := by
  have key : 0x4000 ≤ a.toNat ∧ a.toNat < 0x4000 + 0x100 * nch
      ∧ windowLocation ((a.toNat - 0x4000) / 0x100) (a.toNat % 0x100) = .blk ch i := by
    unfold location at h
    simp only at h
    split at h
    · unfold globalLocation at h; split at h <;> cases h
    · repeat (split at h; · cases h)
      split at h
      · exact ⟨by omega, by omega, h⟩
      · cases h
  obtain ⟨h1, h2, h3⟩ := key
  unfold windowLocation at h3
  split at h3
  · cases h3; exact ⟨h1, h2, by omega, blkAddr_of_addr h1⟩
  · split at h3 <;> cases h3

/-- Which reads use an unwritten register. -/
theorem readsUnwritten_iff {s : State} {l : Location} :
    readsUnwritten s l = true ↔ ∃ ch i, l = .blk ch i ∧ s.blk.read (blkAddr ch i) = none := by
  cases l with
  | blk ch i =>
    refine ⟨fun h => ⟨ch, i, rfl, by simpa [readsUnwritten] using h⟩, ?_⟩
    rintro ⟨_, _, h, hn⟩
    cases h
    simp [readsUnwritten, hn]
  | _ => simp [readsUnwritten]

/-- Cells of different channels stand at different addresses. -/
theorem blkAddr_ne_of_channel {ch ch' i i' : Nat} (h : ch ≠ ch') (hi : i < 64) (hi' : i' < 64) :
    blkAddr ch i ≠ blkAddr ch' i' := by
  unfold blkAddr; omega

/-- A well-formed configuration has 1 to 16 channels. -/
theorem nch_bounds (s : State) : 1 ≤ s.nch ∧ s.nch ≤ 16 := by
  have h := s.cfg.property
  simp only [Config.wf, Bool.and_eq_true, decide_eq_true_eq] at h
  exact h.1.2

/-- The constant tables of a well-formed configuration, entry by entry (00_scope.md R8). -/
theorem qtab_le (s : State) (qp : Nat) : s.qtab qp ≤ 65535 := by
  have h := s.cfg.property
  simp only [Config.wf, Bool.and_eq_true, List.all_eq_true, decide_eq_true_eq] at h
  unfold State.qtab
  rw [List.getD_eq_getElem?_getD]
  cases hv : s.cfg.val.qtab[qp]? with
  | none => simp
  | some v => simpa using h.1.1.1.1.1.2.1 v (List.mem_of_getElem? hv)

theorem shtab_bounds (s : State) {qp : Nat} (hq : qp < 64) : 1 ≤ s.shtab qp ∧ s.shtab qp ≤ 15 := by
  have h := s.cfg.property
  simp only [Config.wf, Bool.and_eq_true, List.all_eq_true, decide_eq_true_eq] at h
  unfold State.shtab
  rw [List.getD_eq_getElem?_getD]
  have hl : qp < s.cfg.val.shtab.length := by have := h.1.1.1.1.1.1.2; omega
  rw [List.getElem?_eq_getElem hl]
  simpa using h.1.1.1.1.1.2.2 _ (List.getElem_mem hl)

theorem location_blkAddr (s : State) {ch i : Nat} (hc : ch < s.nch) (hi : i < 64) :
    location s.nch (BitVec.ofNat 16 (blkAddr ch i)) = .blk ch i := by
  have := nch_bounds s
  unfold blkAddr
  have e := toNat_addr (n := 0x4000 + 0x100 * ch + i) (by omega)
  rw [location_of_window (by omega) (by omega), e, windowLocation_of_blk (by omega)]
  congr 1 <;> omega

theorem location_nzAddr (s : State) {ch : Nat} (hc : ch < s.nch) :
    location s.nch (BitVec.ofNat 16 (nzAddr ch)) = .nz ch := by
  have := nch_bounds s
  unfold nzAddr
  have e := toNat_addr (n := 0x4040 + 0x100 * ch) (by omega)
  rw [location_of_window (by omega) (by omega), e, show (0x4040 + 0x100 * ch) % 0x100 = 64 by omega, windowLocation_of_nz]
  congr 1
  omega

/-- A read of a mapped location answers what the location holds. -/
theorem hostRead_of_mapped {s : State} {a : Addr} {l : Location} (h : location s.nch a = l) (hl : access l ≠ .reserved) :
    hostRead a s = match readLocation s l with
      | some v => .next ((s.reportUninit (readsUnwritten s l)).answer v)
      | none => .fault .mUninit := by
  unfold hostRead
  rw [h]
  split
  · contradiction
  · rfl

/-- The words that are the sign extension of their low 16 bits (20_memory.md R65). -/
theorem eq_sext16_iff (d : Word) : d = sext16 (low16 d) ↔ d.toNat ≤ 0x7FFF ∨ 0xFFFF8000 ≤ d.toNat := by
  have hlt := d.isLt
  rw [← BitVec.toNat_inj]
  simp only [sext16, low16, BitVec.toNat_signExtend, BitVec.toNat_setWidth]
  rw [BitVec.msb_eq_decide]
  simp only [BitVec.toNat_setWidth]
  split <;> simp_all <;> omega

end Sys2Proof.Machine
end

