-- ==== Sys2Proof/Laws/Arith.lean ====
section
/-! SUPPORT. The integer operations on one position, and the rows they make position by position. -/

namespace Sys2Proof.Machine

/-- A `BLK` register holds a signed 16-bit value (10_state.md R21). -/
theorem coef_toInt_bounds (c : Coef) : -32768 ≤ c.toInt ∧ c.toInt ≤ 32767 := by
  have := BitVec.toInt_lt (x := c)
  have := BitVec.le_toInt (x := c)
  omega

/-- A value of the signed 16-bit range is stored exactly. -/
theorem toInt_ofInt_of_range {v : Int} (h1 : -32768 ≤ v) (h2 : v ≤ 32767) : (BitVec.ofInt 16 v).toInt = v := by
  rw [BitVec.toInt_ofInt]
  exact Int.bmod_eq_of_le (by omega) (by omega)

theorem clamp16_bounds (v : Int) : -32768 ≤ clamp16 v ∧ clamp16 v ≤ 32767 := by
  unfold clamp16
  split
  · omega
  · split <;> omega

/-- The level written at one position (40_quant.md R131). -/
theorem getElem?_quantLevels {q i : Nat} {cs : List Coef} {ms : List Mult} {fs : List Bias} {c : Coef} {m : Mult}
    {f : Bias} (hc : cs[i]? = some c) (hm : ms[i]? = some m) (hf : fs[i]? = some f) :
    (quantLevels q cs ms fs)[i]? = some (BitVec.ofInt 16 (level c.toInt m.toNat f.toNat q)) := by
  have hz : (ms.zip fs)[i]? = some (m, f) := List.getElem?_zip_eq_some.mpr ⟨hm, hf⟩
  simp [quantLevels, List.getElem?_zipWith, hc, hz]

/-- The value written at one position (41_dequant.md R161). -/
theorem getElem?_dequantValues {sh i : Nat} {ls : List Coef} {gs : List Mult} {l : Coef} {g : Mult}
    (hl : ls[i]? = some l) (hg : gs[i]? = some g) :
    (dequantValues sh ls gs)[i]? = some (BitVec.ofInt 16 (clamp16 (dval l.toInt g.toNat sh))) := by
  simp [dequantValues, List.getElem?_zipWith, hl, hg]

/-- A block written back is read back (40_quant.md R137, 41_dequant.md R167). -/
theorem read_storeBlk {s : State} {ch : Nat} {vs : List Coef} (hl : vs.length = 64) {i : Nat} (hi : i < 64) :
    (storeBlk s ch vs).blk.read (blkAddr ch i) = vs[i]? := by
  have h : blkAddr ch 0 ≤ blkAddr ch i ∧ blkAddr ch i < blkAddr ch 0 + vs.length := by
    simp only [blkAddr, hl]; omega
  have hsub : blkAddr ch i - blkAddr ch 0 = i := by simp only [blkAddr]; omega
  rw [storeBlk_blk, Memory.read_writeRow, if_pos h, hsub]

/-- Cells outside the channel's 64 registers keep their values. -/
theorem read_storeBlk_of_outside {s : State} {ch : Nat} {vs : List Coef} (hl : vs.length = 64) {a : Nat}
    (h : ¬ (blkAddr ch 0 ≤ a ∧ a < blkAddr ch 0 + 64)) : (storeBlk s ch vs).blk.read a = s.blk.read a := by
  rw [storeBlk_blk, Memory.read_writeRow_of_outside _ _ (by rw [hl]; exact h)]

/-- A register written back holds its value, whatever it held before. -/
theorem blkAt_storeBlk {s : State} {ch : Nat} {vs : List Coef} (hl : vs.length = 64) {i : Nat} {v : Coef} (hi : i < 64)
    (hv : vs[i]? = some v) : (storeBlk s ch vs).blkAt (blkAddr ch i) = v :=
  blkAt_of_read ((read_storeBlk hl hi).trans hv)

/-- Registers outside the channel's 64 keep their values. -/
theorem blkAt_storeBlk_of_outside {s : State} {ch : Nat} {vs : List Coef} (hl : vs.length = 64) {a : Nat}
    (h : ¬ (blkAddr ch 0 ≤ a ∧ a < blkAddr ch 0 + 64)) : (storeBlk s ch vs).blkAt a = s.blkAt a :=
  blkAt_congr (read_storeBlk_of_outside hl h) rfl

end Sys2Proof.Machine
end

