-- ==== Sys2Proof/Laws/Bridge.lean ====
section
/-! SUPPORT. What the bridge's two parts answer: the word address of a bus address, and the word of four bytes (20_memory.md R67, R68). -/

namespace Sys2Proof.Machine

/-- A bus address has a word address exactly when it is naturally aligned and a word of the window. -/
theorem busWordAddr_eq_some_iff {base a : Nat} {x : Addr} :
    busWordAddr base a = some x ↔ a % 4 = 0 ∧ ∃ w < 65536, a = base + 4 * w ∧ x = BitVec.ofNat 16 w := by
  unfold busWordAddr
  split
  · rename_i h
    constructor
    · intro hx
      exact ⟨h.2.1, (a - base) / 4, h.2.2.2, by omega, by simpa using hx.symm⟩
    · rintro ⟨-, w, hw, rfl, rfl⟩
      simp
  · rename_i h
    constructor
    · intro hx
      simp at hx
    · rintro ⟨ha, w, hw, rfl, -⟩
      exact absurd ⟨by omega, ha, by omega, by omega⟩ h

/-- The number of a little-endian word. -/
theorem wordOfBytes_eq (b0 b1 b2 b3 : BitVec 8) :
    wordOfBytes b0 b1 b2 b3
      = BitVec.ofNat 32 (b0.toNat + 2 ^ 8 * b1.toNat + 2 ^ 16 * b2.toNat + 2 ^ 24 * b3.toNat) := by
  apply BitVec.eq_of_toNat_eq
  have := b0.isLt
  have := b1.isLt
  have := b2.isLt
  have := b3.isLt
  simp only [wordOfBytes, BitVec.toNat_append, BitVec.toNat_ofNat]
  rw [Nat.mod_eq_of_lt (by omega), ← Nat.shiftLeft_add_eq_or_of_lt (by omega),
    ← Nat.shiftLeft_add_eq_or_of_lt (by omega), ← Nat.shiftLeft_add_eq_or_of_lt (by omega)]
  simp only [Nat.shiftLeft_eq]
  omega

end Sys2Proof.Machine
end

