-- ==== Sys2Proof/Laws/Capability.lean ====
section
/-! SUPPORT. The selection over a catalog, entry by entry (42_dispatch.md R180). -/

namespace Sys2Proof.Machine

@[simp] theorem sel_nil (feat : Word) : sel [] feat = none := rfl

/-- A later matching entry overrides an earlier one. -/
theorem sel_cons (e : CatEntry) (es : List CatEntry) (feat : Word) :
    sel (e :: es) feat = (sel es feat).or (if entryMatches feat e then some (BitVec.ofNat 8 e.id) else none) := by
  unfold sel
  by_cases h : entryMatches feat e = true
  · rw [List.filter_cons_of_pos h]
    cases hf : es.filter (entryMatches feat) with
    | nil => simp [h]
    | cons x xs =>
      rw [List.getLast?_cons_cons]
      simp [List.getLast?_cons]
  · rw [List.filter_cons_of_neg h]
    simp [h]

/-- An entry with gate 0 matches every mask. -/
theorem entryMatches_of_gate_zero {e : CatEntry} (h : e.gate = 0) (feat : Word) : entryMatches feat e = true := by
  simp [entryMatches, h]

/-- A catalog with a baseline selects some entry, for every mask. -/
theorem sel_isSome_of_hasBaseline {cat : List CatEntry} (h : hasBaseline cat = true) (feat : Word) :
    (sel cat feat).isSome = true := by
  cases cat with
  | nil => simp [hasBaseline] at h
  | cons e es =>
    rw [sel_cons, if_pos (entryMatches_of_gate_zero (by simpa [hasBaseline] using h) feat)]
    cases sel es feat <;> rfl

end Sys2Proof.Machine
end

