-- ==== Sys2Proof/Laws/Codec.lean ====
section
/-! SUPPORT. The decoder and the encoder by numbers (30_encoding.md R101 to R110). -/

namespace Sys2Proof

/-- The decoder, each field spelled out as a quotient and a remainder. -/
theorem decode_eq (d : Word) :
    decode d =
      if d.toNat / 2 ^ 28 ≠ 1 ∧ d.toNat / 2 ^ 28 ≠ 2 ∧ d.toNat / 2 ^ 28 ≠ 3 then .error .reservedOp
      else if d.toNat / 2 ^ 8 % 65536 ≠ 0 then .error .nonzeroZeroField
      else if d.toNat / 2 ^ 28 = 1 then
        if d.toNat / 2 ^ 24 % 16 ≠ 0 ∨ d.toNat % 256 ≠ 0 then .error .dispatchOperand else .ok .dispatch
      else if d.toNat / 2 ^ 28 = 2 then .ok (.quant (d.toNat / 2 ^ 24 % 16) (d.toNat % 256))
      else .ok (.dequant (d.toNat / 2 ^ 24 % 16) (d.toNat % 256)) := by
  have hlt := d.isLt
  have h1 : d.toNat / 2 ^ 28 % 2 ^ 4 = d.toNat / 2 ^ 28 := Nat.mod_eq_of_lt (by omega)
  simp only [decode, bits, h1]
  simp

/-- The number a format C word carries. -/
theorem toNat_formatC {op ch qp : Nat} (h1 : op < 16) (h2 : ch < 16) (h3 : qp < 256) :
    (formatC op ch qp).toNat = op * 2 ^ 28 + ch * 2 ^ 24 + qp := by
  simp only [formatC, BitVec.toNat_ofNat]
  exact Nat.mod_eq_of_lt (by omega)

/-- The fields of a word under the mask of `QUANT` and `DEQUANT` (R103): the operands are cleared. -/
theorem masked_fields (d : Word) :
    (d &&& 0xF0FFFF00#32).toNat / 2 ^ 28 = d.toNat / 2 ^ 28
    ∧ (d &&& 0xF0FFFF00#32).toNat / 2 ^ 24 % 16 = 0
    ∧ (d &&& 0xF0FFFF00#32).toNat / 2 ^ 8 % 65536 = d.toNat / 2 ^ 8 % 65536
    ∧ (d &&& 0xF0FFFF00#32).toNat % 256 = 0 := by
  have hlt := d.isLt
  simp only [BitVec.toNat_and, BitVec.toNat_ofNat]
  rw [show (4043308800 : Nat) % 2 ^ 32 = 0xF0FFFF00 by decide]
  refine ⟨?_, ?_, ?_, ?_⟩
  · rw [← Nat.shiftRight_eq_div_pow, Nat.shiftRight_and_distrib, Nat.shiftRight_eq_div_pow,
      show 0xF0FFFF00 >>> 28 = 2 ^ 4 - 1 by decide, Nat.and_two_pow_sub_one_eq_mod]
    omega
  · rw [← Nat.shiftRight_eq_div_pow, Nat.shiftRight_and_distrib, show (16 : Nat) = 2 ^ 4 by rfl,
      ← Nat.and_two_pow_sub_one_eq_mod, Nat.and_assoc, show 0xF0FFFF00 >>> 24 &&& (2 ^ 4 - 1) = 0 by decide]
    simp
  · rw [← Nat.shiftRight_eq_div_pow, Nat.shiftRight_and_distrib, show (65536 : Nat) = 2 ^ 16 by rfl,
      ← Nat.and_two_pow_sub_one_eq_mod, Nat.and_assoc,
      show 0xF0FFFF00 >>> 8 &&& (2 ^ 16 - 1) = 2 ^ 16 - 1 by decide, Nat.and_two_pow_sub_one_eq_mod,
      Nat.shiftRight_eq_div_pow]
  · rw [show (256 : Nat) = 2 ^ 8 by rfl, ← Nat.and_two_pow_sub_one_eq_mod, Nat.and_assoc,
      show 0xF0FFFF00 &&& (2 ^ 8 - 1) = 0 by decide]
    simp

/-- A word selects the row `k` of a block command exactly when its `op` is `k` and its zero field is 0. -/
theorem masked_eq_iff (d : Word) {k : Nat} (hk : k < 16) :
    d &&& 0xF0FFFF00#32 = BitVec.ofNat 32 (k * 2 ^ 28) ↔ d.toNat / 2 ^ 28 = k ∧ d.toNat / 2 ^ 8 % 65536 = 0 := by
  obtain ⟨h1, h2, h3, h4⟩ := masked_fields d
  have hlt := (d &&& 0xF0FFFF00#32).isLt
  have hb : (BitVec.ofNat 32 (k * 2 ^ 28)).toNat = k * 2 ^ 28 := by
    simp only [BitVec.toNat_ofNat]
    exact Nat.mod_eq_of_lt (by omega)
  constructor
  · intro h
    rw [h, hb] at h1 h2 h3 h4
    omega
  · rintro ⟨e1, e2⟩
    apply BitVec.eq_of_toNat_eq
    rw [e1] at h1
    rw [e2] at h3
    rw [hb]
    omega

end Sys2Proof
end

