-- ==== Sys2Proof/Laws/Rows.lean ====
section
/-! SUPPORT. The rows a command reads, cell by cell: what the cells hold, the row is, and equal cells make equal rows. -/

namespace Sys2Proof.Machine

theorem blkRow_of_cells {s : State} {ch : Nat} {c : Nat → Coef} (h : ∀ i < 64, s.blkAt (blkAddr ch i) = c i) :
    blkRow s ch = (List.range 64).map c :=
  List.map_congr_left fun i hi => h i (List.mem_range.mp hi)

/-- The register at one position of a block. -/
theorem getElem?_blkRow (s : State) (ch : Nat) {i : Nat} (hi : i < 64) :
    (blkRow s ch)[i]? = some (s.blkAt (blkAddr ch i)) := by
  simp [blkRow, hi]

theorem mfRow_of_cells {s : State} {qp : Nat} {m : Nat → Mult} (h : ∀ i < 64, s.mf.read (mfAddr qp i) = some (m i)) :
    mfRow s qp = some ((List.range 64).map m) :=
  Memory.readRow_of_cells _ _ _ m fun i hi => by simpa [mfAddr] using h i hi

theorem biasRow_of_cells {s : State} {qp : Nat} {f : Nat → Bias}
    (h : ∀ i < 64, s.bias.read (biasAddr qp i) = some (f i)) : biasRow s qp = some ((List.range 64).map f) :=
  Memory.readRow_of_cells _ _ _ f fun i hi => by simpa [biasAddr] using h i hi

theorem dqmfRow_of_cells {s : State} {qp : Nat} {g : Nat → Mult}
    (h : ∀ i < 64, s.dqmf.read (dqmfAddr qp i) = some (g i)) : dqmfRow s qp = some ((List.range 64).map g) :=
  Memory.readRow_of_cells _ _ _ g fun i hi => by simpa [dqmfAddr] using h i hi

/-- A row read from one memory is read from every memory with the same cells. -/
theorem Memory.readRow_congr {w : Nat} {m m' : Memory w} {a n : Nat} {vs : List (BitVec w)}
    (h : ∀ i < n, Memory.read m' (a + i) = Memory.read m (a + i)) (hs : Memory.readRow m a n = some vs) :
    Memory.readRow m' a n = some vs :=
  (Memory.readRow_eq_some_iff _ _ _ _).mpr
    ⟨Memory.length_of_readRow hs, fun i hi => (h i hi).trans (Memory.read_of_readRow hs hi)⟩

theorem blkRow_congr {s s' : State} {ch : Nat} (h : ∀ i < 64, s'.blkAt (blkAddr ch i) = s.blkAt (blkAddr ch i)) :
    blkRow s' ch = blkRow s ch :=
  blkRow_of_cells h

theorem mfRow_congr {s s' : State} {qp : Nat} {ms : List Mult}
    (h : ∀ i < 64, s'.mf.read (mfAddr qp i) = s.mf.read (mfAddr qp i)) (hs : mfRow s qp = some ms) :
    mfRow s' qp = some ms :=
  Memory.readRow_congr (fun i hi => by simpa [mfAddr] using h i hi) hs

theorem biasRow_congr {s s' : State} {qp : Nat} {fs : List Bias}
    (h : ∀ i < 64, s'.bias.read (biasAddr qp i) = s.bias.read (biasAddr qp i)) (hs : biasRow s qp = some fs) :
    biasRow s' qp = some fs :=
  Memory.readRow_congr (fun i hi => by simpa [biasAddr] using h i hi) hs

theorem dqmfRow_congr {s s' : State} {qp : Nat} {gs : List Mult}
    (h : ∀ i < 64, s'.dqmf.read (dqmfAddr qp i) = s.dqmf.read (dqmfAddr qp i)) (hs : dqmfRow s qp = some gs) :
    dqmfRow s' qp = some gs :=
  Memory.readRow_congr (fun i hi => by simpa [dqmfAddr] using h i hi) hs

/-- There is no row exactly when one of its cells is unwritten. -/
theorem Memory.readRow_eq_none_iff {w : Nat} (m : Memory w) (a n : Nat) :
    Memory.readRow m a n = none ↔ ∃ i < n, Memory.read m (a + i) = none := by
  constructor
  · intro h
    by_contra hc
    have hall : ∀ i < n, ∃ v, Memory.read m (a + i) = some v := fun i hi =>
      Option.ne_none_iff_exists'.mp fun hn => hc ⟨i, hi, hn⟩
    have := Memory.readRow_of_cells m a n (fun i => (Memory.read m (a + i)).getD 0) fun i hi => by
      obtain ⟨v, hv⟩ := hall i hi
      simp [hv]
    rw [h] at this
    simp at this
  · rintro ⟨i, hi, hn⟩
    exact Memory.readRow_eq_none hi hn

theorem mfRow_eq_none_iff (s : State) (qp : Nat) : mfRow s qp = none ↔ ∃ i < 64, s.mf.read (mfAddr qp i) = none :=
  Memory.readRow_eq_none_iff _ _ _

theorem biasRow_eq_none_iff (s : State) (qp : Nat) :
    biasRow s qp = none ↔ ∃ i < 64, s.bias.read (biasAddr qp i) = none :=
  Memory.readRow_eq_none_iff _ _ _

theorem dqmfRow_eq_none_iff (s : State) (qp : Nat) :
    dqmfRow s qp = none ↔ ∃ i < 64, s.dqmf.read (dqmfAddr qp i) = none :=
  Memory.readRow_eq_none_iff _ _ _

/-- A block is unwritten when one of its registers is, and written when all 64 are (10_state.md R43). -/
theorem blkUnwritten_iff (s : State) (ch : Nat) :
    s.blkUnwritten ch = true ↔ ∃ i < 64, s.blk.read (blkAddr ch i) = none := by
  simp [State.blkUnwritten]

theorem blkUnwritten_eq_false_iff (s : State) (ch : Nat) :
    s.blkUnwritten ch = false ↔ ∀ i < 64, s.blk.read (blkAddr ch i) ≠ none := by
  rw [← Bool.not_eq_true, blkUnwritten_iff]
  simp

/-- A row that keeps `Pacc`, position by position. -/
theorem paccRow_map_iff (accw : Nat) (c : Nat → Coef) (m : Nat → Mult) :
    paccRow accw ((List.range 64).map c) ((List.range 64).map m) = true
      ↔ ∀ i < 64, pacc accw (c i).toInt (m i).toNat = true := by
  simp only [paccRow, List.zip_map', List.all_map, List.all_eq_true, List.mem_range, Function.comp]

end Sys2Proof.Machine
end

