-- ==== Sys2Proof/Laws/Invariant.lean ====
section
/-! SUPPORT. The invariant of the machine under each shared operation. -/

namespace Sys2Proof.Machine

/-- The parts of the invariant. -/
theorem inv_iff (s : State) : s.inv = true ↔
    (s.mf.wf = true ∧ s.bias.wf = true ∧ s.dqmf.wf = true ∧ s.blk.wf = true) ∧ s.cellsMapped = true
      ∧ s.faultRegistersAgree = true ∧ s.handleAgrees = true ∧ s.absentChannelsClear = true := by
  simp only [State.inv, State.memoriesCanonical, Bool.and_eq_true]
  tauto

/-- The invariant does not look at what the host has read. -/
@[simp] theorem inv_answer (s : State) (v : Word) : (s.answer v).inv = s.inv := rfl

/-- The invariant does not look at what the run has reported. -/
@[simp] theorem inv_reportUninit (s : State) (b : Bool) : (s.reportUninit b).inv = s.inv := rfl

/-- The invariant does not look at what the host will do. -/
@[simp] theorem inv_pending (s : State) (p : List HostOp) : ({ s with pending := p } : State).inv = s.inv := rfl

/-- Fault entry from CONFIG or READY keeps the invariant, for the codes and operands the machine raises. -/
theorem inv_raiseFault {s : State} {code : FaultCode} {a : Addr} {d : Word} {w : Bool} (h : s.inv = true)
    (hp : s.phase ≠ .fault) (hcode : code ≠ .none) (hread : w = false → d = 0 ∧ code = .badAddr)
    (hcmd : code = .badCmd ∨ code = .badCh ∨ code = .qpRange ∨ code = .badPhase → a = cmdAddr) :
    (raiseFault code a d w s).inv = true := by
  rw [inv_iff] at *
  obtain ⟨hm, hc, hf, hh, ha⟩ := h
  refine ⟨hm, hc, ?_, ?_, ha⟩
  · simp only [State.faultRegistersAgree, Bool.and_eq_true, decide_eq_true_eq]
    exact ⟨⟨⟨by simp [hcode], fun h => absurd h hcode⟩, fun hw => ⟨(hread hw).1, .inr (hread hw).2⟩⟩, hcmd⟩
  · have e1 : (raiseFault code a d w s).unbound = s.unbound := rfl
    have e2 : (raiseFault code a d w s).bound = s.bound := rfl
    simp only [State.handleAgrees] at *
    simp only [raiseFault_phase, e1, e2]
    split at hh
    · simp [hh]
    · simp [hh]
    · simp_all

/-- A block written back keeps the canonical form and stays inside the map. -/
theorem blk_writeRow_of_inv {s : State} (h : s.inv = true) {ch : Nat} (hc : ch < s.nch) {vs : List Coef}
    (hl : vs.length = 64) :
    (s.blk.writeRow (blkAddr ch 0) vs).wf = true
      ∧ (s.blk.writeRow (blkAddr ch 0) vs).all
          (fun kv => decide (0x4000 ≤ kv.1 ∧ kv.1 < 0x4000 + 0x100 * s.nch ∧ kv.1 % 0x100 < 64)) = true := by
  rw [inv_iff] at h
  obtain ⟨⟨-, -, -, hwf⟩, hm, -, -, -⟩ := h
  simp only [State.cellsMapped, Bool.and_eq_true] at hm
  refine ⟨Memory.wf_writeRow _ _ _ hwf, Memory.all_writeRow _ _ _ hm.2 ?_⟩
  intro i x hi
  exact decide_eq_true (by simp only [blkAddr]; omega)

end Sys2Proof.Machine
end

