-- ==== Sys2Proof/Laws/GoodRun.lean ====
section
/-! SUPPORT. When the host's next operation uses an unwritten register, form by form, and what a run that reported one comes to (10_state.md R43; 70_reset_and_hazards.md R245). -/

namespace Sys2Proof.Machine

/-- A run of no step is good when its state is. -/
theorem goodRun_zero (s : State) : goodRun 0 s = s.goodFinal := rfl

/-- Everything a strict step that answers does: what `step` does, with no unwritten register used. -/
theorem strictStep_next_iff {s t : State} :
    strictStep s = .next t ↔ s.usesUnwritten = false ∧ step s = .next t := by
  cases h : s.usesUnwritten <;> simp [strictStep, h]

theorem strictStep_of_usesUnwritten {s : State} (h : s.usesUnwritten = true) : strictStep s = .fault .mUninit := by
  simp [strictStep, h]

theorem strictStep_of_not_usesUnwritten {s : State} (h : s.usesUnwritten = false) : strictStep s = step s := by
  simp [strictStep, h]

/-- What stops the machine with `M_UNINIT` stops the strict step so. -/
theorem strictStep_of_step_mUninit {s : State} (h : step s = .fault .mUninit) : strictStep s = .fault .mUninit := by
  cases hu : s.usesUnwritten <;> simp [strictStep, hu, h]

/-- A run is good when its first strict step answers and leaves a good run. -/
theorem goodRun_succ_iff {s : State} {k : Nat} :
    goodRun (k + 1) s = true ↔ s.usesUnwritten = false ∧ ∃ t, step s = .next t ∧ goodRun k t = true := by
  have h : goodRun (k + 1) s = true ↔ ∃ t, strictStep s = .next t ∧ goodRun k t = true := by
    cases h : strictStep s <;> simp [goodRun, h]
  simp only [h, strictStep_next_iff, and_assoc, exists_and_left]

theorem commandUsesUnwritten_of_accepted {s : State} {ch qp : Nat} (hp : s.phase = .ready) (hc : ch < s.nch)
    (hq : qp < 64) : s.commandUsesUnwritten ch qp = s.blkUnwritten ch := by
  simp [State.commandUsesUnwritten, hp, hc, hq]

theorem usesUnwritten_of_read {s : State} {a : Addr} {rest : List HostOp} (hp : s.pending = .read a :: rest) :
    s.usesUnwritten = readsUnwritten s (location s.nch a) := by
  simp only [State.usesUnwritten, hp]

theorem usesUnwritten_of_quant {s : State} {d : Word} {rest : List HostOp} {ch qp : Nat}
    (hp : s.pending = .write cmdAddr d :: rest) (hd : decode d = .ok (.quant ch qp)) :
    s.usesUnwritten = s.commandUsesUnwritten ch qp := by
  simp only [State.usesUnwritten, hp, hd]
  rfl

theorem usesUnwritten_of_dequant {s : State} {d : Word} {rest : List HostOp} {ch qp : Nat}
    (hp : s.pending = .write cmdAddr d :: rest) (hd : decode d = .ok (.dequant ch qp)) :
    s.usesUnwritten = s.commandUsesUnwritten ch qp := by
  simp only [State.usesUnwritten, hp, hd]
  rfl

/-- A write that is no `QUANT` or `DEQUANT` uses no register. -/
theorem usesUnwritten_of_other_write {s : State} {a : Addr} {d : Word} {rest : List HostOp}
    (hp : s.pending = .write a d :: rest)
    (h : a ≠ cmdAddr ∨ ∀ ch qp, decode d ≠ .ok (.quant ch qp) ∧ decode d ≠ .ok (.dequant ch qp)) :
    s.usesUnwritten = false := by
  simp only [State.usesUnwritten, hp]
  split
  · rename_i ch qp hd
    rcases h with h | h
    · simp [h]
    · exact absurd hd (h ch qp).1
  · rename_i ch qp hd
    rcases h with h | h
    · simp [h]
    · exact absurd hd (h ch qp).2
  · rfl

end Sys2Proof.Machine
end

