-- ==== Sys2Proof/Laws/PerInstr.lean ====
section
/-! SUPPORT. Statements made of every command as syntax, one lemma per constructor: the family `OpcodeRow`. -/

namespace Sys2Proof.Laws.OpcodeRow

/-- The row of spec/opcode_table.json that a command belongs to: its opcode number, its mask and its match. -/
def row : Instr → Nat × Word × Word
  | .dispatch => (1, 0xFFFFFFFF#32, 0x10000000#32)
  | .quant _ _ => (2, 0xF0FFFF00#32, 0x20000000#32)
  | .dequant _ _ => (3, 0xF0FFFF00#32, 0x30000000#32)

/-- The word of a well-formed command selects the command's own row of the opcode map, and carries its opcode number in
bits 31:28 (30_encoding.md R101, R103). -/
def Statement (i : Instr) : Prop :=
  i.wf = true → encode i &&& (row i).2.1 = (row i).2.2 ∧ (encode i).toNat / 2 ^ 28 = (row i).1

theorem dispatch : Statement .dispatch := fun _ => by decide

theorem quant (ch qp : Nat) : Statement (.quant ch qp) := by
  intro h
  simp only [Instr.wf, chFits, qpFits, Bool.and_eq_true, decide_eq_true_eq] at h
  have hn : (encode (.quant ch qp)).toNat = 2 * 2 ^ 28 + ch * 2 ^ 24 + qp := toNat_formatC (by decide) h.1 h.2
  exact ⟨(masked_eq_iff _ (k := 2) (by decide)).mpr ⟨by omega, by omega⟩, by simp only [row]; omega⟩

theorem dequant (ch qp : Nat) : Statement (.dequant ch qp) := by
  intro h
  simp only [Instr.wf, chFits, qpFits, Bool.and_eq_true, decide_eq_true_eq] at h
  have hn : (encode (.dequant ch qp)).toNat = 3 * 2 ^ 28 + ch * 2 ^ 24 + qp := toNat_formatC (by decide) h.1 h.2
  exact ⟨(masked_eq_iff _ (k := 3) (by decide)).mpr ⟨by omega, by omega⟩, by simp only [row]; omega⟩

end Sys2Proof.Laws.OpcodeRow
end

