-- ==== Sys2Proof/Tests/Slice0.lean ====
section
/-! SUPPORT. The model's own tests: ill-formed terms refused, words decoded, single steps of the vectors of 95_test_vectors.md, and one witness per obligation that has hypotheses. -/

namespace Sys2Proof.Tests

open Sys2Proof.Machine Sys2Proof.Claims Host

/-! ## Ill-formed terms -/

/-- R101: a channel operand of 16 does not fit its field. -/
theorem test_wf_quant_channel : (Instr.quant 16 0).wf = false := by decide

/-- R101: a QP operand of 256 does not fit its field. -/
theorem test_wf_quant_qp : (Instr.quant 0 256).wf = false := by decide

theorem test_wf_dequant_channel : (Instr.dequant 16 0).wf = false := by decide

theorem test_wf_dequant_qp : (Instr.dequant 0 256).wf = false := by decide

/-- R105: the largest operands are well-formed. -/
theorem test_wf_boundary :
    Instr.dispatch.wf = true ∧ (Instr.quant 15 255).wf = true ∧ (Instr.dequant 15 255).wf = true := by decide

/-- Configuration T of 95_test_vectors.md with the example catalogs `EX` and two channels. -/
def configT : Config where
  qtab := (List.range 64).map fun qp => 32768 >>> (qp / 8)
  shtab := (List.range 64).map fun qp => 14 - qp / 8
  accw := 32
  nch := 2
  catQ := [⟨0, 0x0⟩, ⟨1, 0x1⟩, ⟨2, 0x3⟩, ⟨3, 0x7⟩]
  catDq := [⟨0, 0x0⟩, ⟨1, 0x1⟩, ⟨2, 0x3⟩]
  catDqFlat := [⟨16, 0x1⟩, ⟨17, 0x3⟩]

theorem test_configT_wf : configT.wf = true := by decide

/-- R8 (a): a table with 65 entries. -/
theorem test_wf_table_length : ({ configT with qtab := configT.qtab ++ [0] } : Config).wf = false
    ∧ ({ configT with shtab := configT.shtab ++ [1] } : Config).wf = false := by decide

/-- R8 (b): an entry out of range. -/
theorem test_wf_table_range : ({ configT with qtab := List.replicate 64 65536 } : Config).wf = false
    ∧ ({ configT with shtab := List.replicate 64 0 } : Config).wf = false
    ∧ ({ configT with shtab := List.replicate 64 16 } : Config).wf = false := by decide

/-- R8 (c), (d): a table that increases. -/
theorem test_wf_table_order : ({ configT with qtab := List.replicate 63 5 ++ [6] } : Config).wf = false
    ∧ ({ configT with shtab := List.replicate 63 5 ++ [6] } : Config).wf = false := by decide

/-- R8 (e), (f): an accumulator below 32 bits, no channel, 17 channels. -/
theorem test_wf_sizes : ({ configT with accw := 31 } : Config).wf = false
    ∧ ({ configT with nch := 0 } : Config).wf = false ∧ ({ configT with nch := 17 } : Config).wf = false := by decide

/-- R8 (g): a catalog without a baseline, an empty one, and entries out of range. -/
theorem test_wf_catalogs : ({ configT with catQ := [⟨0, 1⟩] } : Config).wf = false
    ∧ ({ configT with catDq := [] } : Config).wf = false
    ∧ ({ configT with catDqFlat := [⟨256, 0⟩] } : Config).wf = false
    ∧ ({ configT with catDqFlat := [⟨0, 2 ^ 32⟩] } : Config).wf = false := by decide

/-- R8: a configuration that fails the check has no state. -/
theorem test_illFormed_config_refused : State.ofConfig { configT with accw := 31 } = none := by decide

/-! ## Decoding: words written out bit by bit from format C (30_encoding.md R101) -/

theorem test_decode_dispatch : decode 0b0001_0000_0000000000000000_00000000#32 = .ok .dispatch := by decide

theorem test_decode_quant : decode 0b0010_0101_0000000000000000_00010101#32 = .ok (.quant 5 21) := by decide

theorem test_decode_dequant : decode 0b0011_1010_0000000000000000_00111111#32 = .ok (.dequant 10 63) := by decide

/-- R105: a bit of the zero field, a reserved `op`, a `DISPATCH` with an operand. -/
theorem test_decode_illegal :
    decode 0b0010_0000_1000000000000000_00001000#32 = .error .nonzeroZeroField
    ∧ decode 0b0100_0000_0000000000000000_00000000#32 = .error .reservedOp
    ∧ decode 0b0001_0000_0000000000000000_00000001#32 = .error .dispatchOperand := by decide

/-- The words of spec/opcode_table.json's rows, with operands. -/
theorem test_decodeTableWord : decodeTableWord 32 0x10000000 = some .dispatch
    ∧ decodeTableWord 32 0x20000000 = some (.quant 0 0) ∧ decodeTableWord 32 0x30000000 = some (.dequant 0 0)
    ∧ decodeTableWord 32 0 = none := by decide

/-! ## Small states -/

/-- Consecutive cells from address `a` on. -/
def cellsFrom {w : Nat} (a : Nat) : List (BitVec w) → Memory w
  | [] => []
  | v :: vs => (a, v) :: cellsFrom (a + 1) vs

/-- Configuration T in its reset state. -/
def config0 : State := State.resetOf ⟨configT, test_configT_wf⟩

/-- The first coefficients of P1, then zeros. -/
def blockP1 : List Coef := [100, -100, 0, 15, 16, 17, 1000, -1000] ++ List.replicate 56 0

/-- The first levels of P2, then zeros. -/
def blockP2 : List Coef := [64, -64, 63, -63, 8190, -8190, 1, -1] ++ List.replicate 56 0

/-- READY, with the rows `MF[8]`, `BIAS[8]` of P1, the row `DQMF[56]` of P2, the row `DQMF[8]`, and both blocks written. -/
def ready0 : State :=
  { config0 with
    phase := .ready
    mf := cellsFrom (mfAddr 8 0) (List.replicate 64 16302)
    bias := cellsFrom (biasAddr 8 0) (List.replicate 64 0)
    dqmf := cellsFrom (dqmfAddr 8 0) (List.replicate 64 36061) ++ cellsFrom (dqmfAddr 56 0) (List.replicate 64 65535)
    blk := cellsFrom (blkAddr 0 0) blockP1 ++ cellsFrom (blkAddr 1 0) blockP2 }

/-- `ready0` with a block of zeros in channel 0. -/
def readyZero : State := { ready0 with blk := cellsFrom (blkAddr 0 0) (List.replicate 64 0) }

/-- `ready0` with a row `MF[8]` and a block that break `Pacc` at 32 bits. -/
def readyOverflow : State :=
  { ready0 with
    mf := cellsFrom (mfAddr 8 0) (List.replicate 64 65535)
    blk := cellsFrom (blkAddr 0 0) (List.replicate 64 32767) }

/-- `readyOverflow` with the last register of channel 0 unwritten. -/
def readyOverflowPart : State := { readyOverflow with blk := cellsFrom (blkAddr 0 0) (List.replicate 63 32767) }

/-- FAULT, after a command in CONFIG (P4). -/
def fault0 : State := raiseFault .badPhase cmdAddr 0x20000008 true config0

/-- The outcome is a next state with the property. -/
def nextIs (o : Result) (p : State → Bool) : Bool :=
  match o with
  | .next t => p t
  | .fault _ => false
  | .refused _ => false

theorem exists_of_nextIs {o : Result} {p : State → Bool} (h : nextIs o p = true) : ∃ t, o = .next t ∧ p t = true := by
  cases o with
  | next t => exact ⟨t, rfl, h⟩
  | fault r => simp [nextIs] at h
  | refused r => simp [nextIs] at h

/-! ## Single steps -/

/-- P2: `CPUFEAT = 7`, FLAT binds 3 and 17. -/
theorem test_dispatch_flat : nextIs (exec .dispatch { config0 with cpufeat := 7 })
    (fun t => decide (t.qsel = 3 ∧ t.dqsel = 17 ∧ t.phase = .ready)) = true := by decide

/-- V5 row 1: a second `DISPATCH` raises `BADPHASE`; `STATUS = 0x182`, `FDATA = 0x10000000`. -/
theorem test_dispatch_twice : nextIs (exec .dispatch ready0)
    (fun t => decide (statusWord t = 0x182 ∧ t.fdata = 0x10000000 ∧ t.faddr = 8)) = true := by decide

/-- P1: `QUANT 0, 8`. -/
theorem test_quant_P1 : nextIs (exec (.quant 0 8) ready0)
    (fun t => decide (t.blk.readRow (blkAddr 0 0) 8 = some [1, -1, 0, 0, 0, 0, 15, -15] ∧ t.nzOf 0 = true)) = true := by
  decide +kernel

/-- V1 row 28: `Pacc` fails. -/
theorem test_quant_overflow : (match exec (.quant 0 8) readyOverflow with
    | .fault .mQovf => true
    | _ => false) = true := by decide +kernel

/-- P2: `DEQUANT 1, 56`, clamped at both ends; the flag is kept. -/
theorem test_dequant_P2 : nextIs (exec (.dequant 1 56) ready0)
    (fun t => decide (t.blk.readRow (blkAddr 1 0) 8 = some [32767, -32767, 32256, -32256, 32767, -32768, 512, -512]
      ∧ t.nzOf 1 = false)) = true := by decide +kernel

/-- V5 row 4: `DEQUANT 3, 63` with two channels raises `BADCH`; `STATUS = 0x162`. -/
theorem test_dequant_badCh : nextIs (exec (.dequant 3 63) ready0)
    (fun t => decide (statusWord t = 0x162 ∧ t.fdata = 0x3300003F)) = true := by decide

/-- V1 rows 17, 18, 27 and 30. -/
theorem test_level_vectors : level 66 20000 10923 8192 = 1 ∧ level (-66) 20000 10923 8192 = -1
    ∧ level (-32768) 65527 32767 65535 = -8190 ∧ pacc 32 (-32768) 65527 = true ∧ pacc 32 (-32768) 65528 = false := by decide

/-- V2 rows 2, 10, 14 and 31. -/
theorem test_dval_vectors : dval (-1) 32768 14 = -2 ∧ dval (-1) 16385 15 = -1 ∧ dval (-100) 36061 14 = -220
    ∧ dval (-32768) 65535 15 = -65535 := by decide

/-- V4 rows 4 and 16: `RANGE` in CONFIG, `FROZEN` in READY before the value is looked at. -/
theorem test_write_mf_zero :
    nextIs (hostWrite 0x1000 0 config0) (fun t => decide (statusWord t = 0x142 ∧ t.faddr = 0x1000 ∧ t.mf = [])) = true
    ∧ nextIs (hostWrite 0x1000 0 ready0) (fun t => decide (statusWord t = 0x132)) = true := by decide

/-- V4 row 6: `WR 0x2208, 32767` writes `BIAS[8][8]`. -/
theorem test_write_bias : nextIs (hostWrite 0x2208 32767 config0)
    (fun t => decide (t.bias.read (biasAddr 8 8) = some 32767 ∧ statusWord t = 0)) = true := by decide

/-- V4 rows 11 to 13: `BLK` data must be a sign-extended 16-bit value. -/
theorem test_write_blk :
    nextIs (hostWrite 0x4000 0xFFFF8000 config0) (fun t => decide (t.blk.read 0x4000 = some 0x8000)) = true
    ∧ nextIs (hostWrite 0x4000 0x00008000 config0) (fun t => decide (statusWord t = 0x142)) = true
    ∧ nextIs (hostWrite 0x4000 0xFFFF7FFF config0) (fun t => decide (statusWord t = 0x142)) = true := by decide

/-- V4 rows 18, 21 and 22: `ROWRITE`, an unmapped read, an unmapped write. -/
theorem test_port_faults :
    nextIs (hostWrite 0x0100 5 config0) (fun t => decide (statusWord t = 0x122)) = true
    ∧ nextIs (hostRead 0x0007 config0) (fun t => decide (statusWord t = 0x012 ∧ t.results = [0])) = true
    ∧ nextIs (hostWrite 0x0180 7 config0) (fun t => decide (statusWord t = 0x112)) = true := by decide

/-- V4 rows 26 and 27: the constant tables. -/
theorem test_read_tables :
    nextIs (hostRead 0x0108 config0) (fun t => decide (t.results = [0x4000])) = true
    ∧ nextIs (hostRead 0x0148 config0) (fun t => decide (t.results = [13])) = true := by decide

/-- P4: a `QUANT` before `DISPATCH`, placed where the next step takes it. -/
theorem test_step_quant_in_config : nextIs (step (State.withFetchWord config0 32 0x20000008))
    (fun t => decide (statusWord t = 0x182 ∧ t.faddr = 8 ∧ t.fdata = 0x20000008 ∧ t.pending = [])) = true := by decide

/-- R67: the little-endian bytes of the word `0x00003FAE` (16302). -/
theorem test_bytesOfWord : bytesOfWord 0x00003FAE = [0xAE, 0x3F, 0, 0] := by decide

/-- R109: `FILLMF 8, 16302` starts at `0x1200`. -/
theorem test_fillmf : (expandLine (.fillmf 8 16302)).head? = some (.write 0x1200 0x3FAE)
    ∧ (expandLine (.fillmf 8 16302)).length = 64 := by decide

/-! ## Witnesses: a concrete state and operands that meet the hypotheses of each obligation, clause by clause -/

/-- A written row of equal cells, as a function of the position. -/
def constRow {w : Nat} (v : BitVec w) : Nat → BitVec w := fun _ => v

/-- The coefficients of `blockP1`, as a function of the position. -/
def coefP1 : Nat → Coef := fun i => blockP1.getD i 0

/-- The levels of `blockP2`, as a function of the position. -/
def levelP2 : Nat → Coef := fun i => blockP2.getD i 0

theorem witness_EncodeAndDecodeAgree :
    (Instr.quant 15 255).wf = true ∧ decode 0x2F0000FF#32 = .ok (.quant 15 255)
    ∧ (Instr.dequant 0 0).wf = true ∧ decode 0x30000000#32 = .ok (.dequant 0 0)
    ∧ ready0.phase = .ready ∧ 1 < ready0.nch := by decide

theorem witness_DecodeFollowsTheOpcodeMap :
    decode 0x2F0000FF#32 = .ok (.quant 15 255) ∧ decode 0x30000000#32 = .ok (.dequant 0 0)
    ∧ 0x40000000#32 &&& 0xFFFFFFFF#32 ≠ 0x10000000#32 ∧ 0x40000000#32 &&& 0xF0FFFF00#32 ≠ 0x20000000#32
    ∧ 0x40000000#32 &&& 0xF0FFFF00#32 ≠ 0x30000000#32 := by decide

theorem witness_StepRunsTheDecodedCommand :
    (State.withFetchWord ready0 32 0x20000008).pending = [.write 0x0008#16 0x20000008#32]
    ∧ decode 0x20000008#32 = .ok (.quant 0 8) := by decide

theorem witness_StepServesTheHostInOrder :
    config0.pending = [] ∧ ({ config0 with pending := [.read 0] } : State).pending = .read 0 :: []
    ∧ (State.withFetchWord config0 32 0x10000000).pending = .write 0x0008#16 0x10000000#32 :: []
    ∧ ∃ t, step (State.withFetchWord config0 32 0x10000000) = .next t ∧ decide (t.phase = .ready) = true :=
  ⟨by decide, by decide, by decide, exists_of_nextIs (by decide)⟩

/-- The phases of the two clauses. -/
theorem witness_ExecuteChecksInOrder : fault0.phase = .fault ∧ ready0.phase ≠ .fault := by decide

theorem witness_IllegalWordsRaiseBadCmd :
    config0.phase ≠ .fault ∧ (0x0FFFFFFF#32).toNat / 2 ^ 28 = 0 ∧ 4 ≤ (0x40000000#32).toNat / 2 ^ 28
    ∧ (0x20000108#32).toNat / 2 ^ 8 % 2 ^ 16 ≠ 0
    ∧ (0x10000001#32).toNat / 2 ^ 28 = 1 ∧ (0x10000001#32).toNat % 2 ^ 28 ≠ 0
    ∧ ready0.phase = .ready ∧ ready0.nch ≤ 15 ∧ 1 < ready0.nch := by decide

/-- The last row and position, one clause each. -/
theorem witness_ReadsOfTables :
    ready0.mf.read (mfAddr 8 63) = some 16302 ∧ ready0.bias.read (biasAddr 8 63) = some 0
    ∧ ready0.dqmf.read (dqmfAddr 56 63) = some 65535 := by decide +kernel

/-- The last register of the last channel, and a negative value in the first one. -/
theorem witness_ReadsOfChannelWindow :
    1 < ready0.nch ∧ ready0.blkAt (blkAddr 1 63) = 0 ∧ ready0.blkAt (blkAddr 0 1) = -100 := by decide +kernel

/-- A read that answers, and an unmapped one that changes the fault registers. -/
theorem witness_ReadsChangeNothingElse :
    (∃ t, hostRead 0x0000 config0 = .next t ∧ decide (t.phase = .config) = true)
    ∧ ∃ t, hostRead 0x0007 config0 = .next t ∧ decide (t.phase ≠ config0.phase) = true :=
  ⟨exists_of_nextIs (by decide), exists_of_nextIs (by decide)⟩

/-- Both ends of every unmapped range, for two channels. -/
theorem witness_UnmappedAccessRaisesBadAddr :
    config0.phase ≠ .fault ∧ unmappedAddr config0.nch 0x0007 ∧ unmappedAddr config0.nch 0x0009
    ∧ unmappedAddr config0.nch 0x00FF ∧ unmappedAddr config0.nch 0x0180 ∧ unmappedAddr config0.nch 0x0FFF
    ∧ unmappedAddr config0.nch 0x4041 ∧ unmappedAddr config0.nch 0x41FF ∧ unmappedAddr config0.nch 0x4200
    ∧ unmappedAddr config0.nch 0xFFFF ∧ ¬ unmappedAddr config0.nch 0x0008 := by
  refine ⟨?_, ?_, ?_, ?_, ?_, ?_, ?_, ?_, ?_, ?_, ?_⟩ <;> decide

/-- Both ends of every read-only range. -/
theorem witness_ReadOnlyWriteRaisesRoWrite :
    ready0.phase ≠ .fault ∧ readOnlyAddr ready0.nch 0x0000 ∧ readOnlyAddr ready0.nch 0x0002
    ∧ readOnlyAddr ready0.nch 0x0006 ∧ readOnlyAddr ready0.nch 0x0100 ∧ readOnlyAddr ready0.nch 0x017F
    ∧ readOnlyAddr ready0.nch 0x4040 ∧ readOnlyAddr ready0.nch 0x4140 := by
  refine ⟨?_, ?_, ?_, ?_, ?_, ?_, ?_, ?_⟩ <;> decide

theorem witness_TableWriteInReadyRaisesFrozen :
    ready0.phase = .ready ∧ configOnlyAddr 0x0003 ∧ configOnlyAddr 0x0004 ∧ configOnlyAddr 0x1000
    ∧ configOnlyAddr 0x3FFF := by decide

/-- Illegal data at a cell of every kind: `MF` 0 and 65536, `BIAS` 32768, `DQMF` 65536, `CQM` 2, `BLK` 32768. -/
theorem witness_IllegalDataRaisesRange :
    ¬ legalData 0x1000 0 ∧ ¬ legalData 0x1FFF 65536 ∧ ¬ legalData 0x2000 32768 ∧ ¬ legalData 0x3FFF 65536
    ∧ ¬ legalData 0x0004 2 ∧ ¬ legalData 0x413F 0x8000 ∧ ¬ legalData 0x4000 0xFFFF7FFF
    ∧ configOnlyAddr 0x1000 ∧ config0.phase = .config ∧ blkRegAddr ready0.nch 0x413F ∧ ready0.phase ≠ .fault
    ∧ ready0.phase = .ready := by
  refine ⟨?_, ?_, ?_, ?_, ?_, ?_, ?_, ?_, ?_, ?_, ?_, ?_⟩ <;> decide

/-- The largest and the smallest legal data of every clause. -/
theorem witness_LegalConfigWriteStoresTheCell :
    config0.phase = .config ∧ legalData 0x0003 0xFFFFFFFF ∧ legalData 0x0004 1 ∧ legalData 0x1000 1
    ∧ legalData 0x1FFF 65535 ∧ legalData 0x2000 0 ∧ legalData 0x2FFF 32767 ∧ legalData 0x3000 0
    ∧ legalData 0x3FFF 65535 := by
  refine ⟨?_, ?_, ?_, ?_, ?_, ?_, ?_, ?_, ?_⟩ <;> decide

theorem witness_BlkTravelsSignExtended :
    blkRegAddr ready0.nch 0x4000 ∧ blkRegAddr ready0.nch 0x413F ∧ ready0.blkAt 0x4001 = -100
    ∧ ready0.phase ≠ .fault ∧ 0xFFFF8000#32 = ((0xFFFF8000#32).setWidth 16).signExtend 32
    ∧ 0x00008000#32 ≠ ((0x00008000#32).setWidth 16).signExtend 32 := by decide +kernel

theorem witness_LegalWriteThenReadReturnsTheWord :
    (legalData 0x1000 65535 ∧ configOnlyAddr 0x1000 ∧ config0.phase = .config)
    ∧ (legalData 0x413F 0xFFFF8000 ∧ blkRegAddr ready0.nch 0x413F ∧ ready0.phase ≠ .fault) := by decide

theorem witness_FaultPhaseServesReadsOnly :
    fault0.phase = .fault ∧ unmappedAddr fault0.nch 0x0007 ∧ ¬ unmappedAddr fault0.nch 0x0002
    ∧ readLocation fault0 (location fault0.nch 0x0002) = some 0x20000008 := by decide

theorem witness_ResetLeavesTheResetValues :
    ({ fault0 with pending := [.reset] } : State).pending = .reset :: [] ∧ fault0.cfg.val.catQ.length = 4
    ∧ fault0.cfg.val.catQ = ⟨0, 0⟩ :: [⟨1, 1⟩, ⟨2, 3⟩, ⟨3, 7⟩] ∧ fault0.cfg.val.catDq = ⟨0, 0⟩ :: [⟨1, 1⟩, ⟨2, 3⟩] := by
  decide

theorem witness_IllFormedConfigurationIsRefused :
    configT.wf = true ∧ ({ configT with nch := 17 } : Config).wf = false := by decide

theorem witness_ResetStateIsTheResetOfTheDefaults :
    State.reset.cfg = Config.givenValid ∧ (Config.givenValid.val.accw, Config.givenValid.val.nch) = (32, 1) :=
  ⟨rfl, rfl⟩

theorem witness_StepsKeepTheConfiguration :
    ∃ t, step (State.withFetchWord ready0 32 0x10000000) = .next t ∧ decide (t.phase = .fault) = true :=
  exists_of_nextIs (by decide)

theorem witness_SelIsTheLastMatch :
    sel configT.catQ 5 = some 1 ∧ sel configT.catDqFlat 6 = none ∧ (⟨7, 0⟩ : CatEntry).gate = 0 := by decide

/-- One state for the flat override and one for the other clause. -/
theorem witness_DispatchBindsTheLastMatches :
    config0.phase = .config
    ∧ (config0.cqm = .flat ∧ ∃ e ∈ config0.cfg.val.catDqFlat, gateHeld 7 e)
    ∧ ¬ (config0.cqm = .flat ∧ ∃ e ∈ config0.cfg.val.catDqFlat, gateHeld 6 e) := by decide

/-- A configuration with the default catalogs is well-formed. -/
theorem test_defaultCatalogs_wf :
    ({ configT with catQ := [⟨0, 0⟩], catDq := [⟨0, 0⟩], catDqFlat := [] } : Config).wf = true := by decide

/-- The default catalogs in one state, the example catalogs in another. -/
theorem witness_ExampleCatalogsBindAsTabled :
    let byDefault := State.resetOf ⟨{ configT with catQ := [⟨0, 0⟩], catDq := [⟨0, 0⟩], catDqFlat := [] }, test_defaultCatalogs_wf⟩
    (byDefault.phase = .config ∧ byDefault.cfg.val.catQ = [⟨0, 0⟩] ∧ byDefault.cfg.val.catDq = [⟨0, 0⟩]
      ∧ byDefault.cfg.val.catDqFlat = [])
    ∧ config0.phase = .config ∧ config0.cfg.val.catQ = [⟨0, 0x0⟩, ⟨1, 0x1⟩, ⟨2, 0x3⟩, ⟨3, 0x7⟩]
    ∧ config0.cfg.val.catDq = [⟨0, 0x0⟩, ⟨1, 0x1⟩, ⟨2, 0x3⟩] ∧ config0.cfg.val.catDqFlat = [⟨16, 0x1⟩, ⟨17, 0x3⟩] := by
  decide

theorem witness_DispatchFreezesHandleAndTables :
    config0.phase = .config ∧ configOnlyAddr 0x3FFF ∧ ready0.phase = .ready ∧ (State.withFetchWord ready0 32 0x10000000).phase = .ready
    ∧ (State.withFetchWord ready0 32 0x10000000).pending.head? = some (.write 0x0008#16 0x10000000#32)
    ∧ ∃ t, step (State.withFetchWord ready0 32 0x10000000) = .next t ∧ decide (t.phase = .fault) = true :=
  ⟨by decide, by decide, by decide, by decide, by decide, exists_of_nextIs (by decide)⟩

/-- P1's block and rows, QP 8 of channel 0; QP 63 of the last channel is in range too. -/
theorem witness_QuantWritesTheLevels :
    accepted ready0 0 8 ∧ blkHolds ready0 0 coefP1 ∧ mfHolds ready0 8 (constRow 16302)
    ∧ biasHolds ready0 8 (constRow 0)
    ∧ (∀ i < 64, rulePacc ready0.cfg.val.accw (coefP1 i).toInt ((constRow (w := 16) 16302) i).toNat)
    ∧ accepted ready0 1 63 := by decide +kernel

theorem witness_QuantFrame :
    ready0.phase = .ready
    ∧ ∃ t, exec (.quant 0 8) ready0 = .next t ∧ decide (t.phase ≠ .fault) = true :=
  ⟨by decide, exists_of_nextIs (by decide +kernel)⟩

/-- The ends of every range, and a product that keeps the 32-bit bound. -/
theorem witness_QuantIntermediateBounds :
    (0 : Int) ≤ 32768 ∧ (32768 : Int) ≤ 32768 ∧ (1 : Int) ≤ 65535 ∧ (0 : Int) ≤ 32767
    ∧ (32768 : Int) * 65527 + 2 ^ 18 ≤ 2 ^ 31 - 1 := by decide

theorem witness_QuantIsSignSymmetric :
    (1 : Int) ≤ 32767 ∧ (0 : Int) ≤ 32767 ∧ (32768 : Int) ≤ 65535 ∧ level 66 20000 10923 8192 = 1 ∧ level (-66) 20000 10923 8192 = -1 := by decide

theorem witness_QmagIsMonotone :
    (0 : Int) ≤ 65 ∧ (65 : Int) ≤ 66 ∧ (0 : Int) ≤ 20000 ∧ (20000 : Int) ≤ 20000 ∧ (10923 : Int) ≤ 10923
    ∧ (0 : Int) ≤ 8192 ∧ (8192 : Int) ≤ 8192 ∧ qmag 65 20000 10923 8192 = 0 ∧ qmag 66 20000 10923 8192 = 1 := by decide

theorem witness_QuantPreservesZero :
    accepted readyZero 0 8 ∧ blkHolds readyZero 0 (fun _ => 0) ∧ mfHolds readyZero 8 (constRow 16302)
    ∧ biasHolds readyZero 8 (constRow 0) := by decide +kernel

/-- `QTAB` all 0 is well-formed. -/
theorem test_zeroTable_wf : ({ configT with qtab := List.replicate 64 0 } : Config).wf = true := by decide

/-- `ready0` over a configuration whose `QTAB` is all 0. -/
def readyZeroTable : State := { ready0 with cfg := ⟨{ configT with qtab := List.replicate 64 0 }, test_zeroTable_wf⟩ }

theorem witness_QuantWithZeroTableEntry :
    accepted readyZeroTable 0 8 ∧ blkHolds readyZeroTable 0 coefP1 ∧ mfHolds readyZeroTable 8 (constRow 16302)
    ∧ biasHolds readyZeroTable 8 (constRow 0)
    ∧ (∀ i < 64, rulePacc readyZeroTable.cfg.val.accw (coefP1 i).toInt ((constRow (w := 16) 16302) i).toNat)
    ∧ readyZeroTable.cfg.val.qtab.getD 8 0 = 0 := by decide +kernel

/-- The 64 registers written, and the last one alone unwritten. -/
theorem witness_QuantOverflowStops :
    accepted readyOverflow 0 8 ∧ blkHolds readyOverflow 0 (constRow 32767) ∧ mfHolds readyOverflow 8 (constRow 65535)
    ∧ biasHolds readyOverflow 8 (constRow 0)
    ∧ (∃ i < 64, ¬ rulePacc readyOverflow.cfg.val.accw ((constRow (w := 16) 32767) i).toInt ((constRow (w := 16) 65535) i).toNat)
    ∧ (∀ i < 64, readyOverflow.blk.read (blkAddr 0 i) ≠ none)
    ∧ (65527 : Mult).toNat ≤ 65527
    ∧ accepted readyOverflowPart 0 8 ∧ mfHolds readyOverflowPart 8 (constRow 65535)
    ∧ biasHolds readyOverflowPart 8 (constRow 0) ∧ readyOverflowPart.blkAt (blkAddr 0 0) = 32767
    ∧ ¬ rulePacc readyOverflowPart.cfg.val.accw (32767 : Coef).toInt (65535 : Mult).toNat
    ∧ readyOverflowPart.blk.read (blkAddr 0 63) = none := by decide +kernel

/-- R43: with an unwritten register the stop for want of `Pacc` is `M_UNINIT`. -/
theorem test_quant_overflow_unwritten : (match exec (.quant 0 8) readyOverflowPart with
    | .fault .mUninit => true
    | _ => false) = true := by decide +kernel

/-- Two states that differ in what a `QUANT` of channel 0 does not read: channel 1 and the rows of `DQMF`. -/
theorem witness_QuantDependsOnItsInputsOnly :
    let other : State := { ready0 with dqmf := [], cpufeat := 7, blk := cellsFrom (blkAddr 0 0) blockP1 }
    accepted other 0 8 ∧ other.cfg = ready0.cfg
    ∧ (∀ i < 64, other.blkAt (blkAddr 0 i) = ready0.blkAt (blkAddr 0 i))
    ∧ (∀ i < 64, other.mf.read (mfAddr 8 i) = ready0.mf.read (mfAddr 8 i))
    ∧ (∀ i < 64, other.bias.read (biasAddr 8 i) = ready0.bias.read (biasAddr 8 i))
    ∧ ∃ t, exec (.quant 0 8) ready0 = .next t ∧ decide (t.phase = .ready) = true :=
  ⟨by decide, rfl, by decide +kernel, by decide +kernel, by decide +kernel, exists_of_nextIs (by decide +kernel)⟩

theorem witness_DequantWritesTheClampedValues :
    accepted ready0 1 56 ∧ blkHolds ready0 1 levelP2 ∧ dqmfHolds ready0 56 (constRow 65535) := by decide +kernel

theorem witness_DequantFrame :
    ready0.phase = .ready
    ∧ ∃ t, exec (.dequant 1 56) ready0 = .next t ∧ decide (t.phase ≠ .fault) = true :=
  ⟨by decide, exists_of_nextIs (by decide +kernel)⟩

theorem witness_DequantIntermediateBounds :
    (-32768 : Int) ≤ 32767 ∧ (0 : Int) ≤ 65535 ∧ 1 ≤ 15 ∧ dval (-32768) 65535 1 = -1073725440
    ∧ dval 32767 65535 1 = 1073692673 := by decide

/-- A negative sum, and a tie of each sign. -/
theorem witness_DequantShiftIsTheFloor :
    1 ≤ 15 ∧ dval (-1) 16385 15 = -1 ∧ (1 : Int) * 8192 % 2 ^ 14 = 2 ^ (14 - 1) ∧ (-1 : Int) * 8192 % 2 ^ 14 = 2 ^ (14 - 1) := by
  decide

/-- A value below, one above, and the ends of the range. -/
theorem witness_ClampKeepsTheSignedRange :
    (-32769 : Int) < -32768 ∧ (32767 : Int) < 32768 ∧ (-32768 : Int) ≤ -32768 ∧ (32767 : Int) ≤ 32767 := by decide

theorem witness_DequantPreservesZero :
    accepted readyZero 0 56 ∧ blkHolds readyZero 0 (fun _ => 0) ∧ dqmfHolds readyZero 56 (constRow 65535) := by
  decide +kernel

/-- Two states that differ in what a `DEQUANT` of channel 1 does not read. -/
theorem witness_DequantDependsOnItsInputsOnly :
    let other : State := { ready0 with mf := [], bias := [], blk := cellsFrom (blkAddr 1 0) blockP2 }
    accepted other 1 56 ∧ other.cfg = ready0.cfg
    ∧ (∀ i < 64, other.blkAt (blkAddr 1 i) = ready0.blkAt (blkAddr 1 i))
    ∧ (∀ i < 64, other.dqmf.read (dqmfAddr 56 i) = ready0.dqmf.read (dqmfAddr 56 i))
    ∧ ∃ t, exec (.dequant 1 56) ready0 = .next t ∧ decide (t.phase = .ready) = true :=
  ⟨by decide, rfl, by decide +kernel, by decide +kernel, exists_of_nextIs (by decide +kernel)⟩

/-- The phases of the clauses, the first channel that does not exist and the first QP out of range. -/
theorem witness_BlockCommandTraps :
    config0.phase = .config ∧ ready0.phase = .ready ∧ ready0.nch ≤ 2 ∧ 1 < ready0.nch ∧ 64 ≤ 64
    ∧ fault0.phase = .fault := by decide

/-- A cell of each kind that is unwritten: row 0 of the tables; rows that are written whole, and a block that is. -/
theorem witness_UnwrittenCellStopsTheModel :
    ready0.mf.read (mfAddr 0 0) = none ∧ ready0.bias.read (biasAddr 63 63) = none
    ∧ ready0.dqmf.read (dqmfAddr 63 63) = none ∧ accepted ready0 0 0 ∧ accepted ready0 1 8
    ∧ mfHolds ready0 8 (constRow 16302) ∧ biasHolds ready0 8 (constRow 0) ∧ dqmfHolds ready0 8 (constRow 36061)
    ∧ ∀ i < 64, ready0.blk.read (blkAddr 0 i) ≠ none := by
  decide +kernel

/-- `ready0` right after a reset of the registers: its rows are written, its blocks are not. -/
def readyUnwritten : State := { ready0 with blk := [] }

/-- A written register, a reset, an unwritten register at the end of the last window, and a `DEQUANT` that completes over
unwritten registers. -/
theorem witness_UnwrittenRegisterHoldsAFreeValue :
    ready0.blk.read (blkAddr 0 1) = some (-100)
    ∧ (∃ t, step { readyUnwritten with pending := [.reset] } = .next t ∧ decide (t.resets = 1) = true)
    ∧ 1 < readyUnwritten.nch ∧ readyUnwritten.blk.read (blkAddr 1 63) = none
    ∧ accepted readyUnwritten 1 56
    ∧ ∃ t, exec (.dequant 1 56) readyUnwritten = .next t ∧ decide (t.phase = .ready) = true :=
  ⟨by decide +kernel, exists_of_nextIs (by decide), by decide, by decide, by decide, exists_of_nextIs (by decide +kernel)⟩

/-- A read, a `DEQUANT` and a step that use an unwritten register and answer, and a step that uses none. -/
theorem witness_UnwrittenRegisterUseRaisesMUninit :
    readyUnwritten.blk.read (blkAddr 1 63) = none ∧ accepted readyUnwritten 1 56
    ∧ (∃ t, hostRead 0x413F readyUnwritten = .next t ∧ decide (t.modelFault = some .mUninit) = true)
    ∧ (∃ t, exec (.dequant 1 56) readyUnwritten = .next t ∧ decide (t.modelFault = some .mUninit) = true)
    ∧ (State.withFetchWord readyUnwritten 32 0x30000008).usesUnwritten = true
    ∧ ∃ t, step (State.withFetchWord ready0 32 0x30000008) = .next t ∧ decide (t.modelFault = none) = true :=
  ⟨by decide, by decide, exists_of_nextIs (by decide +kernel), exists_of_nextIs (by decide +kernel), by decide +kernel,
    exists_of_nextIs (by decide +kernel)⟩

/-- A read and a command of each kind that use an unwritten cell, and a strict step that answers. -/
theorem witness_StrictStepStopsAtEveryUnwrittenCell :
    (ready0.mf.read 0x1000 = none ∧ ready0.mf.read 0x1FFF = none) ∧ ready0.bias.read 0x2FFF = none
    ∧ ready0.dqmf.read 0x3FFF = none
    ∧ (blkRegAddr readyUnwritten.nch 0x413F ∧ readyUnwritten.blk.read 0x413F = none)
    ∧ accepted readyUnwritten 0 8 ∧ readyUnwritten.blk.read (blkAddr 0 63) = none
    ∧ accepted ready0 0 0 ∧ ready0.mf.read (mfAddr 0 0) = none ∧ ready0.dqmf.read (dqmfAddr 0 63) = none
    ∧ (State.withFetchWord ready0 32 0x20000000).pending = .write 0x0008#16 (encode (.quant 0 0)) :: []
    ∧ (State.withFetchWord ready0 32 0x30000000).pending = .write 0x0008#16 (encode (.dequant 0 0)) :: []
    ∧ (∃ t, strictStep (State.withFetchWord ready0 32 0x20000008) = .next t ∧ decide (t.modelFault = none) = true)
    ∧ (∀ a, blkRegAddr ready0.nch a → ready0.blk.read a ≠ none) := by
  refine ⟨by decide +kernel, by decide +kernel, by decide +kernel, by decide, by decide, by decide, by decide, by decide +kernel,
    by decide +kernel, by decide, by decide, exists_of_nextIs (by decide +kernel), ?_⟩
  have h : ∀ b < 0x200, b % 0x100 ≤ 0x3F → ready0.blk.read (0x4000 + b) ≠ none := by decide +kernel
  intro a ha
  have hn : ready0.nch = 2 := by decide
  obtain ⟨h1, h2, h3⟩ := ha
  have := h (a - 0x4000) (by rw [hn] at h2; omega) (by omega)
  rwa [show 0x4000 + (a - 0x4000) = a by omega] at this

/-- R245: a command over written registers and rows is a good run; over unwritten registers it is none. -/
theorem test_goodRun :
    goodRun 1 (State.withFetchWord ready0 32 0x20000008) = true
    ∧ goodRun 1 (State.withFetchWord readyUnwritten 32 0x30000008) = false := by decide +kernel

/-- Assumption log 22: a fault, then a reset, is a good run. -/
theorem test_goodRun_after_reset : goodRun 2 { config0 with pending := [.read 0x0007, .reset] } = true := by decide

theorem witness_VariantsDoNotChangeResults :
    (Instr.quant 0 8 = .quant 0 8 ∨ Instr.quant 0 8 = .dequant 0 8)
    ∧ ∃ t, exec (.quant 0 8) ready0 = .next t ∧ decide (t.phase = .ready) = true :=
  ⟨by decide, exists_of_nextIs (by decide +kernel)⟩

/-- A `QUANT` of channel 0, then a `DEQUANT` of channel 1. -/
theorem witness_CommandsOfDifferentChannelsCommute :
    ready0.blk.wf = true ∧ ready0.phase = .ready
    ∧ ∃ t, exec (.quant 0 8) ready0 = .next t ∧ ∃ u, exec (.dequant 1 56) t = .next u ∧ u.phase = .ready := by
  refine ⟨by decide +kernel, by decide, ?_⟩
  obtain ⟨t, ht, hu⟩ := exists_of_nextIs (o := exec (.quant 0 8) ready0)
    (p := fun t => nextIs (exec (.dequant 1 56) t) fun u => decide (u.phase = .ready)) (by decide +kernel)
  obtain ⟨u, hu, hp⟩ := exists_of_nextIs hu
  exact ⟨t, ht, u, hu, of_decide_eq_true hp⟩

/-- The invariant holds in READY with rows and blocks written, and in FAULT; a step from there answers. -/
theorem witness_StepsKeepTheInvariant :
    ready0.inv = true ∧ fault0.inv = true ∧ (State.withFetchWord ready0 32 0x20000008).inv = true
    ∧ ∃ t, step (State.withFetchWord ready0 32 0x20000008) = .next t ∧ decide (t.phase = .ready) = true :=
  ⟨by decide +kernel, by decide, by decide +kernel, exists_of_nextIs (by decide +kernel)⟩

/-- A step of each kind: the phase kept, reset, `DISPATCH`, a fault. -/
theorem witness_PhaseTransitions :
    (∃ t, step ready0 = .next t ∧ decide (t.phase = .ready) = true)
    ∧ (∃ t, step { fault0 with pending := [.reset] } = .next t ∧ decide (t.phase = .config) = true)
    ∧ (∃ t, step (State.withFetchWord config0 32 0x10000000) = .next t ∧ decide (t.phase = .ready) = true)
    ∧ ∃ t, step (State.withFetchWord config0 32 0) = .next t ∧ decide (t.phase = .fault) = true :=
  ⟨exists_of_nextIs (by decide), exists_of_nextIs (by decide), exists_of_nextIs (by decide),
    exists_of_nextIs (by decide)⟩

theorem witness_FirstFaultWins :
    (State.withFetchWord fault0 32 0x10000000).phase = .fault
    ∧ (State.withFetchWord fault0 32 0x10000000).pending = [.write 0x0008#16 0x10000000#32]
    ∧ ∃ t, step (State.withFetchWord fault0 32 0x10000000) = .next t ∧ decide (t.fcode = .badPhase) = true :=
  ⟨by decide, by decide, exists_of_nextIs (by decide)⟩

/-- A read and a write that raise. -/
theorem witness_FaultsArePrecise :
    config0.phase ≠ .fault
    ∧ (∃ t, step { config0 with pending := [.read 0x0007] } = .next t ∧ decide (t.phase = .fault) = true)
    ∧ ∃ t, step { config0 with pending := [.write 0x1000 0] } = .next t ∧ decide (t.phase = .fault) = true :=
  ⟨by decide, exists_of_nextIs (by decide), exists_of_nextIs (by decide)⟩

/-- A `QUANT` that sets a flag, and a reset that clears one. -/
theorem witness_FlagIsWrittenByQuantOnly :
    (∃ t, step (State.withFetchWord ready0 32 0x20000008) = .next t ∧ decide (t.nzOf 0 ≠ ready0.nzOf 0) = true)
    ∧ ∃ t, step { (ready0.setNz 1 true) with pending := [.reset] } = .next t
        ∧ decide (t.nzOf 1 ≠ (ready0.setNz 1 true).nzOf 1) = true :=
  ⟨exists_of_nextIs (by decide +kernel), exists_of_nextIs (by decide)⟩

/-- The first and the last word of an aligned window, and accesses that are not forwarded, a window at byte address 2 among
them. -/
theorem witness_BridgeForwardsAlignedWordsOnly :
    bridge 0x10000 (.load 0x10000 4) = some (.read 0) ∧ bridge 0x10000 (.load 0x4FFFC 4) = some (.read 0xFFFF)
    ∧ bridge 0x10000 (.load 0x50000 4) = none ∧ bridge 0x10000 (.load 0x10002 4) = none
    ∧ bridge 2 (.load 2 4) = none ∧ bridge 2 (.load 4 4) = none ∧ 0x10000 % 4 = 0
    ∧ bridge 0x10000 (.store 0x10020 [0x08, 0, 0, 0x20]) = some (.write 0x0008 0x20000008) := by decide

end Sys2Proof.Tests
end

section
/-! The family of 00_scope.md: the configurations that the check accepts (R8). -/

namespace Sys2Proof

/-- Clauses (c) and (d) of R8. -/
theorem nonIncreasing_iff (t : List Nat) :
    nonIncreasing t = true ↔ ∀ q ≤ 62, t.getD (q + 1) 0 ≤ t.getD q 0 := by
  simp only [nonIncreasing, List.all_eq_true, List.mem_range, decide_eq_true_eq, Nat.lt_succ_iff]

/-- The first part of clause (g) of R8. -/
theorem hasBaseline_iff (cat : List CatEntry) : hasBaseline cat = true ↔ ∃ e es, cat = e :: es ∧ e.gate = 0 := by
  cases cat with
  | nil => simp [hasBaseline]
  | cons e es => simp [hasBaseline]

/-- The ranges of clause (g) of R8. -/
theorem CatEntry.inRange_iff (e : CatEntry) : e.inRange = true ↔ e.id ≤ 255 ∧ e.gate ≤ 2 ^ 32 - 1 := by
  simp only [CatEntry.inRange, Bool.and_eq_true, decide_eq_true_eq]

/-- The ranges of clause (g) of R8, which one clause states of the three catalogs together. -/
theorem CatEntry.all_inRange_iff (c₁ c₂ c₃ : List CatEntry) :
    (c₁.all inRange && c₂.all inRange && c₃.all inRange) = true
      ↔ ∀ e ∈ c₁ ++ c₂ ++ c₃, e.id ≤ 255 ∧ e.gate ≤ 2 ^ 32 - 1 := by
  rw [← List.all_append, ← List.all_append, List.all_eq_true]
  exact forall₂_congr fun e _ => e.inRange_iff

/-- `WF(cfg)` is the conjunction of the clauses (a) to (g) of R8. -/
theorem Config.wf_iff (c : Config) :
    c.wf = true ↔
      (c.qtab.length = 64 ∧ c.shtab.length = 64)
      ∧ ((∀ v ∈ c.qtab, v ≤ 65535) ∧ (∀ v ∈ c.shtab, 1 ≤ v ∧ v ≤ 15))
      ∧ (∀ q ≤ 62, c.qtab.getD (q + 1) 0 ≤ c.qtab.getD q 0)
      ∧ (∀ q ≤ 62, c.shtab.getD (q + 1) 0 ≤ c.shtab.getD q 0)
      ∧ 32 ≤ c.accw ∧ (1 ≤ c.nch ∧ c.nch ≤ 16)
      ∧ (∃ e es, c.catQ = e :: es ∧ e.gate = 0) ∧ (∃ e es, c.catDq = e :: es ∧ e.gate = 0)
      ∧ (∀ e ∈ c.catQ ++ c.catDq ++ c.catDqFlat, e.id ≤ 255 ∧ e.gate ≤ 2 ^ 32 - 1) := by
  rw [← CatEntry.all_inRange_iff, ← hasBaseline_iff, ← hasBaseline_iff, ← nonIncreasing_iff, ← nonIncreasing_iff]
  simp only [Config.wf, Bool.and_eq_true, List.all_eq_true, decide_eq_true_eq, and_assoc]

namespace Machine

/-- R8: parameters that fail `WF` have no state. -/
theorem State.ofConfig_of_not_wf {c : Config} (h : c.wf = false) : State.ofConfig c = none :=
  dif_neg (Bool.eq_false_iff.mp h)

/-- R8: parameters that meet `WF` have their reset state. -/
theorem State.ofConfig_of_wf {c : Config} (h : c.wf = true) : State.ofConfig c = some (State.resetOf ⟨c, h⟩) :=
  dif_pos h

/-- Settles O22: the check is the conjunction of R8's clauses, and `State.ofConfig` branches on it alone. -/
theorem illFormedConfigurationIsRefused : Obligations.IllFormedConfigurationIsRefused :=
  ⟨Config.wf_iff, fun _ => State.ofConfig_of_not_wf, fun _ => State.ofConfig_of_wf⟩

end Machine
end Sys2Proof
end

section
/-! The family of 10_state.md: what every step keeps, what a command may change, and what an unwritten cell comes to. -/

namespace Sys2Proof

/-- The fields of a format C word (30_encoding.md R101). -/
theorem formatC_fields {op ch qp : Nat} (hop : op < 16) (hch : ch < 16) (hqp : qp < 256) :
    (formatC op ch qp).toNat / 2 ^ 28 = op ∧ (formatC op ch qp).toNat / 2 ^ 24 % 16 = ch
      ∧ (formatC op ch qp).toNat / 2 ^ 8 % 65536 = 0 ∧ (formatC op ch qp).toNat % 256 = qp := by
  rw [toNat_formatC hop hch hqp]
  omega

/-- The decoder reads back what the encoder wrote (30_encoding.md R110). -/
theorem decode_encode {i : Instr} (h : i.wf = true) : decode (encode i) = .ok i := by
  cases i with
  | dispatch => rfl
  | quant ch qp =>
    simp only [Instr.wf, chFits, qpFits, Bool.and_eq_true, decide_eq_true_eq] at h
    obtain ⟨hop, hch, hz, hqp⟩ := formatC_fields (op := 2) (by decide) h.1 h.2
    rw [encode, decode_eq, hop, hch, hz, hqp]
    rfl
  | dequant ch qp =>
    simp only [Instr.wf, chFits, qpFits, Bool.and_eq_true, decide_eq_true_eq] at h
    obtain ⟨hop, hch, hz, hqp⟩ := formatC_fields (op := 3) (by decide) h.1 h.2
    rw [encode, decode_eq, hop, hch, hz, hqp]
    rfl

namespace Machine

open Claims

/-! ## One step, by the operation it serves -/

theorem step_of_pending {s : State} {op : HostOp} {rest : List HostOp} (h : s.pending = op :: rest) :
    step s = hostOp op { s with pending := rest } := by
  simp only [step, serveHost, h]

theorem exec_of_fault (i : Instr) {s : State} (h : s.phase = .fault) : exec i s = .next s := by
  cases i <;> simp [exec, execDispatch, execQuant, execDequant, checkBlockCommand, h]

/-- A write of a command's word to `CMD` is that command's meaning, in every phase (30_encoding.md R104). -/
theorem hostWrite_cmd_of_decode {d : Word} {i : Instr} (hd : decode d = .ok i) (s : State) :
    hostWrite cmdAddr d s = exec i s := by
  by_cases hp : s.phase = .fault
  · simp [hostWrite, hp, exec_of_fault]
  · simp [hostWrite, hp, location_cmdAddr, access, execute, hd]

theorem exec_quant_of_accepted {s : State} {ch qp : Nat} (h : accepted s ch qp) :
    exec (.quant ch qp) s = runQuant ch qp s := by
  obtain ⟨hp, hc, hq⟩ := h
  exact checkBlockCommand_of_accepted hp hc hq

theorem exec_dequant_of_accepted {s : State} {ch qp : Nat} (h : accepted s ch qp) :
    exec (.dequant ch qp) s = runDequant ch qp s := by
  obtain ⟨hp, hc, hq⟩ := h
  exact checkBlockCommand_of_accepted hp hc hq

/-- A block command that answers from READY without a fault entry ran. -/
theorem checkBlockCommand_ran {i : Instr} {ch qp : Nat} {s t : State} {run : State → Host.Outcome State Fault Refusal}
    (h : checkBlockCommand i ch qp s run = .next t) (hs : s.phase = .ready) (ht : t.phase ≠ .fault) :
    run s = .next t := by
  rcases checkBlockCommand_next h with ⟨hf, -⟩ | ⟨-, code, -, -, rfl, -⟩ | ⟨-, -, -, hr⟩
  · simp [hs] at hf
  · simp at ht
  · exact hr

/-- A `QUANT` that completes writes a whole block, the flag of that block, and the report. -/
theorem runQuant_next {ch qp : Nat} {s t : State} (h : runQuant ch qp s = .next t) :
    ∃ vs : List Coef, vs.length = 64 ∧ t = ((storeBlk s ch vs).setNz ch (nzFlag vs)).reportUninit (s.blkUnwritten ch) := by
  obtain ⟨ms, fs, hm, hf, -, rfl⟩ := runQuant_next_iff.mp h
  exact ⟨_, by simp [length_quantLevels, length_of_mfRow hm, length_of_biasRow hf], rfl⟩

/-- A `DEQUANT` that completes writes a whole block and the report. -/
theorem runDequant_next {ch qp : Nat} {s t : State} (h : runDequant ch qp s = .next t) :
    ∃ vs : List Coef, vs.length = 64 ∧ t = (storeBlk s ch vs).reportUninit (s.blkUnwritten ch) := by
  obtain ⟨gs, hg, rfl⟩ := runDequant_next_iff.mp h
  exact ⟨_, by simp [length_dequantValues, length_of_dqmfRow hg], rfl⟩

/-! ## The host's accesses to one location -/

/-- The cell a `BLK` register's address names. -/
theorem location_of_blkRegAddr {nch : Nat} {a : Addr} (h : blkRegAddr nch a.toNat) :
    ∃ ch i, location nch a = .blk ch i ∧ blkAddr ch i = a.toNat := by
  obtain ⟨hlo, hhi, hoff⟩ := h
  exact ⟨_, _, by rw [location_of_window hlo hhi, windowLocation_of_blk (by omega)], blkAddr_of_addr hlo⟩

theorem mfAddr_bounds {qp i : Nat} (hq : qp < 64) (hi : i < 64) : 0x1000 ≤ mfAddr qp i ∧ mfAddr qp i < 0x2000 := by
  simp only [mfAddr]
  omega

theorem biasAddr_bounds {qp i : Nat} (hq : qp < 64) (hi : i < 64) :
    0x2000 ≤ biasAddr qp i ∧ biasAddr qp i < 0x3000 := by
  simp only [biasAddr]
  omega

theorem dqmfAddr_bounds {qp i : Nat} (hq : qp < 64) (hi : i < 64) :
    0x3000 ≤ dqmfAddr qp i ∧ dqmfAddr qp i < 0x4000 := by
  simp only [dqmfAddr]
  omega

/-- The registers of a channel that exists stand at `BLK` addresses. -/
theorem blkRegAddr_blkAddr {nch ch i : Nat} (hc : ch < nch) (hi : i < 64) : blkRegAddr nch (blkAddr ch i) := by
  simp only [blkRegAddr, blkAddr]
  omega

theorem hostRead_of_blk {s : State} {a : Addr} {ch i : Nat} (h : location s.nch a = .blk ch i) :
    hostRead a s =
      .next (answered (reported s (s.blk.read (blkAddr ch i))) ((s.blkAt (blkAddr ch i)).signExtend 32)) := by
  rw [hostRead_of_mapped h (by simp [access])]
  cases hr : s.blk.read (blkAddr ch i) <;> simp [readLocation, readsUnwritten, hr, sext16, State.answer, State.reportUninit]

/-- A host read stops with `M_UNINIT` exactly where the location holds no value. -/
theorem hostRead_eq_mUninit_iff {s : State} {a : Addr} {l : Location} (h : location s.nch a = l)
    (hl : access l ≠ .reserved) : hostRead a s = .fault .mUninit ↔ readLocation s l = none := by
  rw [hostRead_of_mapped h hl]
  cases readLocation s l <;> simp

theorem hostRead_mf_eq_mUninit_iff {s : State} {a : Addr} {qp i : Nat} (h : location s.nch a = .mf qp i) :
    hostRead a s = .fault .mUninit ↔ s.mf.read (mfAddr qp i) = none :=
  (hostRead_eq_mUninit_iff h (by simp [access])).trans Option.map_eq_none_iff

theorem hostRead_bias_eq_mUninit_iff {s : State} {a : Addr} {qp i : Nat} (h : location s.nch a = .bias qp i) :
    hostRead a s = .fault .mUninit ↔ s.bias.read (biasAddr qp i) = none :=
  (hostRead_eq_mUninit_iff h (by simp [access])).trans Option.map_eq_none_iff

theorem hostRead_dqmf_eq_mUninit_iff {s : State} {a : Addr} {qp i : Nat} (h : location s.nch a = .dqmf qp i) :
    hostRead a s = .fault .mUninit ↔ s.dqmf.read (dqmfAddr qp i) = none :=
  (hostRead_eq_mUninit_iff h (by simp [access])).trans Option.map_eq_none_iff

/-- A write to a location writable in every phase but FAULT goes to the check of its data. -/
theorem hostWrite_of_readWrite {s : State} {a : Addr} (d : Word) (h : access (location s.nch a) = .readWrite)
    (hp : s.phase ≠ .fault) : hostWrite a d s = .next (writeChecked a d s) := by
  simp [hostWrite, h, hp]

/-! ## The invariant under each operation -/

/-- The parts of `State.cellsMapped`, memory by memory. -/
theorem cellsMapped_iff (s : State) : s.cellsMapped = true ↔
    s.mf.all (fun kv => decide (0x1000 ≤ kv.1 ∧ kv.1 < 0x2000 ∧ kv.2 ≠ 0)) = true
      ∧ s.bias.all (fun kv => decide (0x2000 ≤ kv.1 ∧ kv.1 < 0x3000)) = true
      ∧ s.dqmf.all (fun kv => decide (0x3000 ≤ kv.1 ∧ kv.1 < 0x4000)) = true
      ∧ s.blk.all (fun kv => decide (0x4000 ≤ kv.1 ∧ kv.1 < 0x4000 + 0x100 * s.nch ∧ kv.1 % 0x100 < 64)) = true := by
  simp only [State.cellsMapped, Bool.and_eq_true, and_assoc]

/-- Cleared flags are clear, of the channels that do not exist too. -/
theorem nzOf_of_cleared {s : State} (h : s.nz = Vector.replicate 16 false) (ch : Nat) : s.nzOf ch = false := by
  by_cases hc : ch < 16 <;> simp [State.nzOf, h, hc]

theorem inv_resetOf (c : ValidConfig) : (State.resetOf c).inv = true := by
  have hflags : (State.resetOf c).absentChannelsClear = true :=
    List.all_eq_true.mpr fun ch _ => decide_eq_true fun _ => nzOf_of_cleared rfl ch
  have hhandle : (State.resetOf c).handleAgrees = true := by simp [State.handleAgrees, State.unbound, State.resetOf]
  exact (inv_iff _).mpr ⟨⟨rfl, rfl, rfl, rfl⟩, rfl, rfl, hhandle, hflags⟩

theorem inv_resetBlock (s : State) : (resetBlock s).inv = true := inv_resetOf s.cfg

/-- `DISPATCH` binds the Implementation Handle and so keeps the invariant. -/
theorem inv_runDispatch {s : State} (h : s.inv = true) (hp : s.phase = .config) : (runDispatch s).inv = true := by
  rw [inv_iff] at *
  obtain ⟨hwf, hmap, hfault, -, hflags⟩ := h
  refine ⟨hwf, hmap, ?_, by simp [State.handleAgrees, State.bound], hflags⟩
  simp only [State.faultRegistersAgree, Bool.and_eq_true, decide_eq_true_eq] at hfault ⊢
  simpa [hp] using hfault

theorem inv_write_mf {s : State} (h : s.inv = true) {qp i : Nat} (hq : qp < 64) (hi : i < 64) {x : Mult} (hx : x ≠ 0) :
    ({ s with mf := s.mf.write (mfAddr qp i) x } : State).inv = true := by
  rw [inv_iff, cellsMapped_iff] at *
  obtain ⟨⟨hmf, hwf⟩, ⟨hmap, hmaps⟩, hrest⟩ := h
  obtain ⟨hlo, hhi⟩ := mfAddr_bounds hq hi
  exact ⟨⟨Memory.wf_write _ _ _ hmf, hwf⟩, ⟨Memory.all_write _ _ hmap (decide_eq_true ⟨hlo, hhi, hx⟩), hmaps⟩, hrest⟩

theorem inv_write_bias {s : State} (h : s.inv = true) {qp i : Nat} (hq : qp < 64) (hi : i < 64) (x : Bias) :
    ({ s with bias := s.bias.write (biasAddr qp i) x } : State).inv = true := by
  rw [inv_iff, cellsMapped_iff] at *
  obtain ⟨⟨hmf, hbias, hwf⟩, ⟨hmfmap, hmap, hmaps⟩, hrest⟩ := h
  exact ⟨⟨hmf, Memory.wf_write _ _ _ hbias, hwf⟩,
    ⟨hmfmap, Memory.all_write _ _ hmap (decide_eq_true (biasAddr_bounds hq hi)), hmaps⟩, hrest⟩

theorem inv_write_dqmf {s : State} (h : s.inv = true) {qp i : Nat} (hq : qp < 64) (hi : i < 64) (x : Mult) :
    ({ s with dqmf := s.dqmf.write (dqmfAddr qp i) x } : State).inv = true := by
  rw [inv_iff, cellsMapped_iff] at *
  obtain ⟨⟨hmf, hbias, hdqmf, hblk⟩, ⟨hmfmap, hbiasmap, hmap, hblkmap⟩, hrest⟩ := h
  exact ⟨⟨hmf, hbias, Memory.wf_write _ _ _ hdqmf, hblk⟩,
    ⟨hmfmap, hbiasmap, Memory.all_write _ _ hmap (decide_eq_true (dqmfAddr_bounds hq hi)), hblkmap⟩, hrest⟩

/-- Any change of the block registers that keeps them canonical and inside the map keeps the invariant. -/
theorem inv_set_blk {s : State} (h : s.inv = true) {m : Memory 16} (hwf : m.wf = true)
    (hmap : m.all (fun kv => decide (0x4000 ≤ kv.1 ∧ kv.1 < 0x4000 + 0x100 * s.nch ∧ kv.1 % 0x100 < 64)) = true) :
    ({ s with blk := m } : State).inv = true := by
  rw [inv_iff, cellsMapped_iff] at *
  obtain ⟨⟨hmf, hbias, hdqmf, -⟩, ⟨hmfmap, hbiasmap, hdqmfmap, -⟩, hrest⟩ := h
  exact ⟨⟨hmf, hbias, hdqmf, hwf⟩, ⟨hmfmap, hbiasmap, hdqmfmap, hmap⟩, hrest⟩

theorem inv_write_blk {s : State} (h : s.inv = true) {ch i : Nat} (hc : ch < s.nch) (hi : i < 64) (x : Coef) :
    ({ s with blk := s.blk.write (blkAddr ch i) x } : State).inv = true := by
  obtain ⟨⟨-, -, -, hwf⟩, hmapped, -⟩ := (inv_iff s).mp h
  obtain ⟨-, -, -, hmap⟩ := (cellsMapped_iff s).mp hmapped
  exact inv_set_blk h (Memory.wf_write _ _ _ hwf)
    (Memory.all_write _ _ hmap (decide_eq_true (by simp only [blkAddr]; omega)))

theorem inv_storeBlk {s : State} (h : s.inv = true) {ch : Nat} (hc : ch < s.nch) {vs : List Coef} (hl : vs.length = 64) :
    (storeBlk s ch vs).inv = true := by
  obtain ⟨hwf, hmap⟩ := blk_writeRow_of_inv h hc hl
  exact inv_set_blk h hwf hmap

/-- The flag of a channel that exists may be anything. -/
theorem inv_setNz {s : State} (h : s.inv = true) {ch : Nat} (hc : ch < s.nch) (b : Bool) : (s.setNz ch b).inv = true := by
  rw [inv_iff] at *
  obtain ⟨hwf, hmap, hfault, hhandle, hflags⟩ := h
  refine ⟨hwf, hmap, hfault, hhandle, ?_⟩
  simp only [State.absentChannelsClear, List.all_eq_true, List.mem_range, decide_eq_true_eq] at hflags ⊢
  intro c hc16 hcn
  have hcn : s.nch ≤ c := hcn
  rw [nzOf_setNz_of_ne s b (by omega)]
  exact hflags c hc16 hcn

/-- While the handle is unbound, the dispatcher's inputs may be anything. -/
theorem inv_set_dispatchInputs {s : State} (h : s.inv = true) (hp : s.phase = .config) (feat : Word) (preset : Preset) :
    ({ s with cpufeat := feat, cqm := preset } : State).inv = true := by
  rw [inv_iff] at *
  obtain ⟨hwf, hmap, hfault, hhandle, hflags⟩ := h
  refine ⟨hwf, hmap, hfault, ?_, hflags⟩
  simp only [State.handleAgrees, hp] at hhandle ⊢
  exact hhandle

/-- A legal `MF` word is no zero (10_state.md R35). -/
theorem low16_ne_zero_of_legal_mf {qp i : Nat} {d : Word} (h : legal (.mf qp i) d = true) : low16 d ≠ 0 := by
  obtain ⟨hlo, hhi⟩ := of_decide_eq_true h
  intro h0
  have hmod : d.toNat % 65536 = 0 := by simpa [low16] using congrArg BitVec.toNat h0
  omega

/-- A legal store to a location writable in this phase keeps the invariant. -/
theorem inv_storeLocation {s : State} {l : Location} {d : Word} (h : s.inv = true) (hr : cellInRange s.nch l)
    (hl : legal l d = true) (ha : access l = .configOnly → s.phase = .config) : (storeLocation l d s).inv = true := by
  cases l with
  | cpufeat => exact inv_set_dispatchInputs h (ha rfl) d s.cqm
  | cqm => exact inv_set_dispatchInputs h (ha rfl) s.cpufeat (presetOf d)
  | mf qp i => exact inv_write_mf h hr.1 hr.2 (low16_ne_zero_of_legal_mf hl)
  | bias qp i => exact inv_write_bias h hr.1 hr.2 _
  | dqmf qp i => exact inv_write_dqmf h hr.1 hr.2 _
  | blk ch i => exact inv_write_blk h hr.1 hr.2 _
  | _ => exact h

/-- A fault entry of a command keeps the invariant. -/
theorem inv_raiseCommand {s : State} {code : FaultCode} (i : Instr) (h : s.inv = true) (hp : s.phase ≠ .fault)
    (hcode : code ≠ .none) : (raiseCommand code i s).inv = true :=
  inv_raiseFault h hp hcode (by simp) fun _ => rfl

theorem inv_exec {i : Instr} {s t : State} (h : s.inv = true) (he : exec i s = .next t) : t.inv = true := by
  rcases exec_next he with ⟨-, rfl⟩ | ⟨hp, code, hcode, -, rfl⟩ | ⟨hp, -, rfl⟩ | ⟨-, ch, qp, -, hc, -, hr⟩
    | ⟨-, ch, qp, -, hc, -, hr⟩
  · exact h
  · exact inv_raiseCommand i h hp hcode
  · exact inv_runDispatch h hp
  · obtain ⟨vs, hl, rfl⟩ := runQuant_next hr
    rw [inv_reportUninit]
    exact inv_setNz (inv_storeBlk h hc hl) hc _
  · obtain ⟨vs, hl, rfl⟩ := runDequant_next hr
    rw [inv_reportUninit]
    exact inv_storeBlk h hc hl

theorem inv_hostRead {a : Addr} {s t : State} (h : s.inv = true) (hr : hostRead a s = .next t) : t.inv = true := by
  rcases hostRead_next hr with ⟨v, rfl⟩ | ⟨hp, -, rfl⟩
  · rwa [inv_answer, inv_reportUninit]
  · rw [inv_answer]
    exact inv_raiseFault h hp (by simp) (by simp) (by simp)

theorem inv_hostWrite {a : Addr} {d : Word} {s t : State} (h : s.inv = true) (hw : hostWrite a d s = .next t) :
    t.inv = true := by
  rcases hostWrite_next hw with ⟨-, rfl⟩ | ⟨hp, code, hcode, rfl, haddr⟩ | ⟨-, hl, rfl, hacc⟩ | ⟨-, -, i, -, he⟩
  · exact h
  · refine inv_raiseFault h hp hcode (by simp) fun hcmd => ?_
    by_contra hne
    rcases haddr hne with rfl | rfl | rfl | rfl <;> simp at hcmd
  · refine inv_storeLocation h (location_inRange s.nch a) hl fun hc => ?_
    rcases hacc with ⟨-, hp⟩ | hrw
    · exact hp
    · simp [hc] at hrw
  · exact inv_exec h he

theorem inv_hostOp {op : HostOp} {s t : State} (h : s.inv = true) (ho : hostOp op s = .next t) : t.inv = true := by
  cases op with
  | read a => exact inv_hostRead h ho
  | write a d => exact inv_hostWrite h ho
  | reset =>
    obtain rfl : resetBlock s = t := by simpa [hostOp] using ho
    exact inv_resetBlock s

/-- Settles O52: the step serves one host operation, and each keeps the invariant. -/
theorem stepsKeepTheInvariant : Obligations.StepsKeepTheInvariant := by
  intro s t h hs
  rcases step_next hs with ⟨-, rfl⟩ | ⟨op, rest, -, ho⟩
  · exact h
  · exact inv_hostOp (by rwa [inv_pending]) ho

/-- Settles O51: the reset state over any parameters meets the invariant part by part. -/
theorem invariantHoldsAtReset : Obligations.InvariantHoldsAtReset :=
  ⟨inv_resetOf, inv_resetOf _⟩

/-! ## Reset, the parameters and the decoded command -/

/-- Settles O23: no host operation touches the parameters. -/
theorem stepsKeepTheConfiguration : Obligations.StepsKeepTheConfiguration := by
  intro s t hs
  rcases step_next hs with ⟨-, rfl⟩ | ⟨op, rest, -, ho⟩
  · rfl
  · exact (hostOp_keeps_host ho).2

/-- Settles O4: in FAULT phase both sides leave the state as it is; otherwise the write executes the word. -/
theorem stepRunsTheDecodedCommand : Obligations.StepRunsTheDecodedCommand := by
  intro s d rest i hp hd
  rw [step_of_pending hp]
  exact hostWrite_cmd_of_decode hd _

/-- Settles O20: the step at a reset event is `resetBlock`, whose fields the state laws give. -/
theorem resetLeavesTheResetValues : Obligations.ResetLeavesTheResetValues := by
  intro s rest q qs d ds hp hq hd
  have hflags : ∀ ch, (resetBlock { s with pending := rest }).nzOf ch = false := nzOf_of_cleared rfl
  exact ⟨resetBlock { s with pending := rest }, step_of_pending hp, by simp [hq, hd, baselineId, hflags]⟩

/-- Settles O21: both states are the reset of the same parameters, field by field. -/
theorem resetStateIsTheResetOfTheDefaults : Obligations.ResetStateIsTheResetOfTheDefaults := by
  refine ⟨rfl, fun s hc => ?_, rfl, rfl⟩
  rw [step_of_pending rfl, hostOp, resetBlock, hc]
  rfl

/-! ## The frames of the block commands -/

/-- Only the use of an unwritten register changes the report. -/
theorem used_of_reportUninit_ne {s : State} {used : Bool}
    (h : (bif used then some Fault.mUninit else s.modelFault) ≠ s.modelFault) : used = true := by
  cases used
  · exact absurd rfl h
  · rfl

/-- Settles O29: what ran wrote one block, one flag and the report. -/
theorem quantFrame : Obligations.QuantFrame := by
  intro s t ch qp hs he ht
  obtain ⟨vs, hl, rfl⟩ := runQuant_next (checkBlockCommand_ran he hs ht)
  exact ⟨rfl, fun hm => (blkUnwritten_iff s ch).mp (used_of_reportUninit_ne hm),
    fun a ha => ⟨read_storeBlk_of_outside hl ha, blkAt_storeBlk_of_outside hl ha⟩,
    fun c hc => nzOf_setNz_of_ne (storeBlk s ch vs) _ hc⟩

/-- Settles O38: what ran wrote one block and the report. -/
theorem dequantFrame : Obligations.DequantFrame := by
  intro s t ch qp hs he ht
  obtain ⟨vs, hl, rfl⟩ := runDequant_next (checkBlockCommand_ran he hs ht)
  exact ⟨rfl, fun hm => (blkUnwritten_iff s ch).mp (used_of_reportUninit_ne hm),
    fun a ha => ⟨read_storeBlk_of_outside hl ha, blkAt_storeBlk_of_outside hl ha⟩⟩

/-- A command changes a flag only as a `QUANT` of that channel. -/
theorem exec_next_of_nzOf_ne {i : Instr} {s t : State} {ch : Nat} (he : exec i s = .next t)
    (hne : t.nzOf ch ≠ s.nzOf ch) : ∃ qp, i = .quant ch qp := by
  rcases exec_next he with ⟨-, rfl⟩ | ⟨-, code, -, -, rfl⟩ | ⟨-, -, rfl⟩ | ⟨-, c, qp, rfl, -, -, hr⟩
    | ⟨-, c, qp, -, -, -, hr⟩
  · exact absurd rfl hne
  · exact absurd rfl hne
  · exact absurd rfl hne
  · obtain ⟨vs, -, rfl⟩ := runQuant_next hr
    by_cases hc : ch = c
    · exact ⟨qp, by rw [hc]⟩
    · exact absurd (nzOf_setNz_of_ne (storeBlk s c vs) _ hc) hne
  · obtain ⟨vs, -, rfl⟩ := runDequant_next hr
    exact absurd rfl hne

/-- Settles O56: of the host operations only reset and a command touch the flags. -/
theorem flagIsWrittenByQuantOnly : Obligations.FlagIsWrittenByQuantOnly := by
  intro s t ch hs hne
  rcases step_next hs with ⟨-, rfl⟩ | ⟨op, rest, hp, ho⟩
  · exact absurd rfl hne
  cases op with
  | reset => exact .inl ⟨rest, hp⟩
  | read a => rcases hostRead_next ho with ⟨v, rfl⟩ | ⟨-, -, rfl⟩ <;> exact absurd rfl hne
  | write a d =>
    rcases hostWrite_next ho with ⟨-, rfl⟩ | ⟨-, code, -, rfl, -⟩ | ⟨-, -, rfl, -⟩ | ⟨-, rfl, i, hd, he⟩
    · exact absurd rfl hne
    · exact absurd rfl hne
    · exact absurd (nzOf_congr (storeLocation_nz _ _ _) ch) hne
    · obtain ⟨qp, rfl⟩ := exec_next_of_nzOf_ne he hne
      exact .inr ⟨qp, d, rest, hp, hd⟩

/-! ## A `BLK` register on the data path -/

/-- A legal write to a `BLK` register stores it and changes nothing else. -/
theorem hostWrite_blk_of_legal {s : State} {a : Addr} {d : Word} {ch i : Nat} (h : location s.nch a = .blk ch i)
    (hp : s.phase ≠ .fault) (hd : d = sext16 (low16 d)) :
    hostWrite a d s = .next { s with blk := s.blk.write (blkAddr ch i) (low16 d) } := by
  have hl : legal (.blk ch i) d = true := decide_eq_true hd
  rw [hostWrite_of_readWrite d (by rw [h]; rfl) hp, writeChecked, h, if_pos hl]
  rfl

theorem hostWrite_blk_of_not_legal {s : State} {a : Addr} {d : Word} {ch i : Nat} (h : location s.nch a = .blk ch i)
    (hp : s.phase ≠ .fault) (hd : d ≠ sext16 (low16 d)) : hostWrite a d s = .next (raiseFault .range a d true s) := by
  have hl : ¬ legal (.blk ch i) d = true := fun hl => hd (of_decide_eq_true hl)
  rw [hostWrite_of_readWrite d (by rw [h]; rfl) hp, writeChecked, h, if_neg hl]

/-- Settles O17: the address names a register, and the three accesses to it are the lemmas above. -/
theorem blkTravelsSignExtended : Obligations.BlkTravelsSignExtended := by
  intro s a ha
  obtain ⟨ch, i, hloc, haddr⟩ := location_of_blkRegAddr ha
  rw [← haddr]
  refine ⟨hostRead_of_blk hloc, fun d hp hd => ?_, fun d hp hd => hostWrite_blk_of_not_legal hloc hp hd⟩
  have hread : ∀ b ≠ blkAddr ch i, (s.blk.write (blkAddr ch i) (low16 d)).read b = s.blk.read b :=
    fun b hb => Memory.read_write_of_ne _ _ hb
  exact ⟨_, hostWrite_blk_of_legal hloc hp hd, rfl, Memory.read_write_self _ _ _,
    blkAt_of_read (Memory.read_write_self _ _ _), fun b hb => ⟨hread b hb, blkAt_congr (hread b hb) rfl⟩⟩

/-! ## Unwritten cells -/

/-- An accepted `QUANT` whose rows have an unwritten cell stops with `M_UNINIT`. -/
theorem exec_quant_of_unwrittenCell {s : State} {ch qp : Nat} (h : accepted s ch qp)
    (hcell : ∃ i < 64, s.mf.read (mfAddr qp i) = none ∨ s.bias.read (biasAddr qp i) = none) :
    exec (.quant ch qp) s = .fault .mUninit := by
  rw [exec_quant_of_accepted h, runQuant_eq_mUninit_iff, mfRow_eq_none_iff, biasRow_eq_none_iff]
  obtain ⟨i, hi, hm | hb⟩ := hcell
  · exact .inl ⟨i, hi, hm⟩
  · exact .inr (.inl ⟨i, hi, hb⟩)

/-- Over a written block, an accepted `QUANT` stops with `M_UNINIT` for nothing else. -/
theorem unwrittenCell_of_exec_quant {s : State} {ch qp : Nat} (h : accepted s ch qp)
    (hblk : ∀ i < 64, s.blk.read (blkAddr ch i) ≠ none) (hstop : exec (.quant ch qp) s = .fault .mUninit) :
    ∃ i < 64, s.mf.read (mfAddr qp i) = none ∨ s.bias.read (biasAddr qp i) = none := by
  rw [exec_quant_of_accepted h, runQuant_eq_mUninit_iff, mfRow_eq_none_iff, biasRow_eq_none_iff,
    (blkUnwritten_eq_false_iff s ch).mpr hblk] at hstop
  rcases hstop with ⟨i, hi, hm⟩ | ⟨i, hi, hb⟩ | ⟨hu, -⟩
  · exact ⟨i, hi, .inl hm⟩
  · exact ⟨i, hi, .inr hb⟩
  · cases hu

/-- An accepted `DEQUANT` stops with `M_UNINIT` exactly when its row has an unwritten cell. -/
theorem exec_dequant_eq_mUninit_iff {s : State} {ch qp : Nat} (h : accepted s ch qp) :
    exec (.dequant ch qp) s = .fault .mUninit ↔ ∃ i < 64, s.dqmf.read (dqmfAddr qp i) = none := by
  rw [exec_dequant_of_accepted h, runDequant_eq_mUninit_iff, dqmfRow_eq_none_iff]

/-- Settles O45: a read stops where its location holds no value, and a command where its rows are not written whole. -/
theorem unwrittenCellStopsTheModel : Obligations.UnwrittenCellStopsTheModel :=
  ⟨fun _ _ _ hq hi => ⟨hostRead_mf_eq_mUninit_iff (location_mfAddr _ hq hi),
    hostRead_bias_eq_mUninit_iff (location_biasAddr _ hq hi), hostRead_dqmf_eq_mUninit_iff (location_dqmfAddr _ hq hi)⟩,
  fun _ _ _ h => ⟨exec_quant_of_unwrittenCell h, unwrittenCell_of_exec_quant h, exec_dequant_eq_mUninit_iff h⟩⟩

/-- A block written back leaves no register of its channel unwritten. -/
theorem read_storeBlk_ne_none {s : State} {ch k : Nat} {vs : List Coef} (hl : vs.length = 64) (hk : k < 64) :
    (storeBlk s ch vs).blk.read (blkAddr ch k) ≠ none := by
  rw [read_storeBlk hl hk, List.getElem?_eq_getElem (by omega)]
  simp

/-- An accepted block command that answers leaves no register of its channel unwritten. -/
theorem exec_next_written {s t : State} {ch qp k : Nat} {i : Instr} (ha : accepted s ch qp)
    (hi : i = .quant ch qp ∨ i = .dequant ch qp) (he : exec i s = .next t) (hk : k < 64) :
    t.blk.read (blkAddr ch k) ≠ none := by
  rcases hi with rfl | rfl
  · rw [exec_quant_of_accepted ha] at he
    obtain ⟨vs, hl, rfl⟩ := runQuant_next he
    exact read_storeBlk_ne_none hl hk
  · rw [exec_dequant_of_accepted ha] at he
    obtain ⟨vs, hl, rfl⟩ := runDequant_next he
    exact read_storeBlk_ne_none hl hk

/-- Settles O46: the free value is what `State.blkAt` gives where `blk` lists nothing, as after reset it does. -/
theorem unwrittenRegisterHoldsAFreeValue : Obligations.UnwrittenRegisterHoldsAFreeValue := by
  refine ⟨fun s a v h => blkAt_of_read h, fun s rest hp => ?_, fun s ch i hc hi hn => ?_,
    fun s t ch qp i ha hi he k hk => exec_next_written ha hi he hk⟩
  · exact ⟨_, step_of_pending hp, fun a => blkAt_of_unwritten rfl⟩
  · rw [← blkAt_of_unwritten hn]
    refine (hostRead_of_blk (location_blkAddr s hc hi)).trans ?_
    rw [hn]

/-! ## The report of an unwritten register -/

/-- A block command reports the use of an unwritten register exactly when its checks pass and its channel has one, provided
its run does. -/
theorem checkBlockCommand_modelFault {i : Instr} {ch qp : Nat} {s t : State}
    {run : State → Host.Outcome State Fault Refusal}
    (hrun : run s = .next t → t.modelFault = bif s.blkUnwritten ch then some .mUninit else s.modelFault)
    (h : checkBlockCommand i ch qp s run = .next t) :
    t.modelFault = bif s.commandUsesUnwritten ch qp then some .mUninit else s.modelFault := by
  by_cases ha : accepted s ch qp
  · obtain ⟨hp, hc, hq⟩ := ha
    rw [commandUsesUnwritten_of_accepted hp hc hq]
    exact hrun (by rwa [checkBlockCommand_of_accepted hp hc hq] at h)
  · have hu : s.commandUsesUnwritten ch qp = false := by
      simp only [State.commandUsesUnwritten, decide_eq_false ha, Bool.false_and]
    rw [hu]
    rcases checkBlockCommand_next h with ⟨-, rfl⟩ | ⟨-, code, -, -, rfl, -⟩ | ⟨hp, hc, hq, -⟩
    · rfl
    · rfl
    · exact absurd ⟨hp, hc, hq⟩ ha

theorem exec_quant_modelFault {ch qp : Nat} {s t : State} (h : exec (.quant ch qp) s = .next t) :
    t.modelFault = bif s.commandUsesUnwritten ch qp then some .mUninit else s.modelFault := by
  refine checkBlockCommand_modelFault (fun hr => ?_) h
  obtain ⟨vs, -, rfl⟩ := runQuant_next hr
  rfl

theorem exec_dequant_modelFault {ch qp : Nat} {s t : State} (h : exec (.dequant ch qp) s = .next t) :
    t.modelFault = bif s.commandUsesUnwritten ch qp then some .mUninit else s.modelFault := by
  refine checkBlockCommand_modelFault (fun hr => ?_) h
  obtain ⟨vs, -, rfl⟩ := runDequant_next hr
  rfl

theorem exec_dispatch_modelFault {s t : State} (h : exec .dispatch s = .next t) : t.modelFault = s.modelFault := by
  rcases exec_next h with ⟨-, rfl⟩ | ⟨-, code, -, -, rfl⟩ | ⟨-, -, rfl⟩ | ⟨-, ch, qp, hi, -⟩ | ⟨-, ch, qp, hi, -⟩
  · rfl
  · rfl
  · rfl
  · cases hi
  · cases hi

/-- A write that delivers no command reports nothing. -/
theorem hostWrite_modelFault_of_no_command {a : Addr} {d : Word} {s t : State} (h : hostWrite a d s = .next t)
    (hno : ∀ i, a = cmdAddr → decode d ≠ .ok i) : t.modelFault = s.modelFault := by
  rcases hostWrite_next h with ⟨-, rfl⟩ | ⟨-, code, -, rfl, -⟩ | ⟨-, -, rfl, -⟩ | ⟨-, ha, i, hd, -⟩
  · rfl
  · rfl
  · exact storeLocation_modelFault _ _ _
  · exact absurd hd (hno i ha)

/-- What a write reports: `M_UNINIT` when it delivers a command that uses an unwritten register. -/
theorem hostWrite_modelFault {a : Addr} {d : Word} {rest : List HostOp} {s t : State} (hp : s.pending = .write a d :: rest)
    (h : hostWrite a d { s with pending := rest } = .next t) :
    t.modelFault = bif s.usesUnwritten then some .mUninit else s.modelFault := by
  by_cases hno : ∀ i, a = cmdAddr → decode d ≠ .ok i
  · rw [usesUnwritten_of_other_write hp ?_]
    · exact (hostWrite_modelFault_of_no_command h hno :)
    · by_cases ha : a = cmdAddr
      · exact .inr fun ch qp => ⟨hno _ ha, hno _ ha⟩
      · exact .inl ha
  · push Not at hno
    obtain ⟨i, rfl, hd⟩ := hno
    rw [hostWrite_cmd_of_decode hd] at h
    cases i with
    | dispatch =>
      rw [usesUnwritten_of_other_write hp (.inr fun ch qp => by simp [hd])]
      exact (exec_dispatch_modelFault h :)
    | quant ch qp => rw [usesUnwritten_of_quant hp hd]; exact (exec_quant_modelFault h :)
    | dequant ch qp => rw [usesUnwritten_of_dequant hp hd]; exact (exec_dequant_modelFault h :)

/-- What a read reports: `M_UNINIT` when its register is unwritten. -/
theorem hostRead_modelFault {a : Addr} {rest : List HostOp} {s t : State} (hp : s.pending = .read a :: rest)
    (h : hostRead a { s with pending := rest } = .next t) :
    t.modelFault = bif s.usesUnwritten then some .mUninit else s.modelFault := by
  rw [usesUnwritten_of_read hp]
  rcases hostRead_next h with ⟨v, rfl⟩ | ⟨-, hacc, rfl⟩
  · rfl
  · rw [show location s.nch a = .unmapped from access_eq_reserved hacc]
    rfl

/-- What a step reports, and that no step takes a report back (10_state.md R43, assumption log 21). -/
theorem step_modelFault {s t : State} (h : step s = .next t) :
    t.modelFault = bif s.usesUnwritten then some .mUninit else s.modelFault := by
  rcases step_next h with ⟨hp, rfl⟩ | ⟨op, rest, hp, ho⟩
  · simp [State.usesUnwritten, hp]
  cases op with
  | read a => exact hostRead_modelFault hp ho
  | write a d => exact hostWrite_modelFault hp ho
  | reset =>
    obtain rfl : resetBlock { s with pending := rest } = t := by simpa [hostOp] using ho
    simp [State.usesUnwritten, hp]

theorem goodRun_of_usesUnwritten {s : State} (n : Nat) (h : s.usesUnwritten = true) : goodRun (n + 1) s = false := by
  rw [← Bool.not_eq_true, goodRun_succ_iff]
  simp [h]

/-- A run from a state that reports a model-level fault is no good run, since no step takes the report back. -/
theorem goodRun_of_modelFault (n : Nat) : ∀ s : State, s.modelFault ≠ none → goodRun n s = false := by
  induction n with
  | zero => intro s h; simp [goodRun_zero, State.goodFinal, h]
  | succ n ih =>
    intro s h
    rw [← Bool.not_eq_true, goodRun_succ_iff]
    rintro ⟨hu, t, hs, hgood⟩
    have ht : t.modelFault = s.modelFault := by simpa [hu] using step_modelFault hs
    simp [ih t (ht ▸ h)] at hgood

/-- Settles O47: the read and the two commands raise it, and every step carries it on. -/
theorem unwrittenRegisterUseRaisesMUninit : Obligations.UnwrittenRegisterUseRaisesMUninit := by
  refine ⟨fun s ch i hc hi hn => ?_, fun s ch qp k i ha hi hk hn => ?_, fun s t => step_modelFault,
    goodRun_of_modelFault, fun n s => goodRun_of_usesUnwritten n⟩
  · exact ⟨_, hostRead_of_blk (location_blkAddr s hc hi), by simp [hn]⟩
  · have hu := (blkUnwritten_iff s ch).mpr ⟨k, hk, hn⟩
    rcases hi with rfl | rfl
    · rw [exec_quant_of_accepted ha]
      exact runQuant_of_blkUnwritten hu
    · rw [exec_dequant_of_accepted ha]
      exact runDequant_of_blkUnwritten hu

/-! ## The strict step -/

/-- The strict step stops at a command whose channel has an unwritten register. -/
theorem strictStep_command_of_blk {s : State} {ch qp k : Nat} {i : Instr} {rest : List HostOp} (ha : accepted s ch qp)
    (hk : k < 64) (hi : i = .quant ch qp ∨ i = .dequant ch qp) (hp : s.pending = .write cmdAddr (encode i) :: rest)
    (hd : decode (encode i) = .ok i) (hn : s.blk.read (blkAddr ch k) = none) : strictStep s = .fault .mUninit := by
  obtain ⟨hready, hc, hq⟩ := ha
  have hu : s.commandUsesUnwritten ch qp = true :=
    (commandUsesUnwritten_of_accepted hready hc hq).trans ((blkUnwritten_iff s ch).mpr ⟨k, hk, hn⟩)
  apply strictStep_of_usesUnwritten
  rcases hi with rfl | rfl
  · rwa [usesUnwritten_of_quant hp hd]
  · rwa [usesUnwritten_of_dequant hp hd]

/-- The strict step stops at a command that stops. -/
theorem strictStep_command_of_exec {s : State} {i : Instr} {rest : List HostOp}
    (hp : s.pending = .write cmdAddr (encode i) :: rest) (hd : decode (encode i) = .ok i)
    (he : exec i { s with pending := rest } = .fault .mUninit) : strictStep s = .fault .mUninit :=
  strictStep_of_step_mUninit ((stepRunsTheDecodedCommand s _ rest i hp hd).trans he)

/-- The strict step stops at a read that stops. -/
theorem strictStep_of_read {s : State} {a : Addr} {rest : List HostOp} (hp : s.pending = .read a :: rest)
    (h : hostRead a { s with pending := rest } = .fault .mUninit) : strictStep s = .fault .mUninit :=
  strictStep_of_step_mUninit ((step_of_pending hp).trans h)

/-- Where every `BLK` register is written, the host's next operation uses no unwritten one. -/
theorem usesUnwritten_of_written {s : State} (h : ∀ a, blkRegAddr s.nch a → s.blk.read a ≠ none) :
    s.usesUnwritten = false := by
  have hcmd : ∀ ch qp, s.commandUsesUnwritten ch qp = false := by
    intro ch qp
    by_contra hu
    simp only [State.commandUsesUnwritten, Bool.not_eq_false, Bool.and_eq_true, decide_eq_true_eq, blkUnwritten_iff] at hu
    obtain ⟨⟨-, hc, -⟩, i, hi, hn⟩ := hu
    exact h _ (blkRegAddr_blkAddr hc hi) hn
  have hread : ∀ a, readsUnwritten s (location s.nch a) = false := by
    intro a
    rw [← Bool.not_eq_true, readsUnwritten_iff]
    rintro ⟨ch, i, hloc, hn⟩
    obtain ⟨hlo, hhi, hoff, haddr⟩ := location_eq_blk hloc
    exact h _ (haddr ▸ ⟨hlo, hhi, by omega⟩) hn
  unfold State.usesUnwritten
  split
  · rfl
  · rfl
  · exact hread _
  · split
    · simp [hcmd]
    · simp [hcmd]
    · rfl

/-- Settles O48: every use of an unwritten cell is either a stop of the step or a use the strict step refuses. -/
theorem strictStepStopsAtEveryUnwrittenCell : Obligations.StrictStepStopsAtEveryUnwrittenCell := by
  refine ⟨fun s a rest hp hcell => ?_, fun s ch qp k rest ha hk => ?_, fun s t h => ?_,
    fun s h => strictStep_of_not_usesUnwritten (usesUnwritten_of_written h)⟩
  · rcases hcell with ⟨hlo, hhi, hn⟩ | ⟨hlo, hhi, hn⟩ | ⟨hlo, hhi, hn⟩ | ⟨hblk, hn⟩
    · exact strictStep_of_read hp ((hostRead_mf_eq_mUninit_iff (location_of_mf hlo (by omega))).mpr
        (by rwa [mfAddr_of_addr hlo]))
    · exact strictStep_of_read hp ((hostRead_bias_eq_mUninit_iff (location_of_bias hlo (by omega))).mpr
        (by rwa [biasAddr_of_addr hlo]))
    · exact strictStep_of_read hp ((hostRead_dqmf_eq_mUninit_iff (location_of_dqmf hlo (by omega))).mpr
        (by rwa [dqmfAddr_of_addr hlo]))
    · obtain ⟨ch, i, hloc, haddr⟩ := location_of_blkRegAddr hblk
      apply strictStep_of_usesUnwritten
      rw [usesUnwritten_of_read hp, readsUnwritten_iff]
      exact ⟨ch, i, hloc, haddr ▸ hn⟩
  · have hc16 : ch < 16 := by have := nch_bounds s; omega
    have hd : ∀ i, i = .quant ch qp ∨ i = .dequant ch qp → decode (encode i) = .ok i := by
      rintro i (rfl | rfl) <;> exact decode_encode (by simp [Instr.wf, chFits, qpFits]; omega)
    refine ⟨fun hp hcell => ?_, fun hp hcell => ?_⟩
    · rcases hcell with hn | hrow
      · exact strictStep_command_of_blk ha hk (.inl rfl) hp (hd _ (.inl rfl)) hn
      · exact strictStep_command_of_exec hp (hd _ (.inl rfl))
          (exec_quant_of_unwrittenCell (s := { s with pending := rest }) ha ⟨k, hk, hrow⟩)
    · rcases hcell with hn | hrow
      · exact strictStep_command_of_blk ha hk (.inr rfl) hp (hd _ (.inr rfl)) hn
      · exact strictStep_command_of_exec hp (hd _ (.inr rfl))
          ((exec_dequant_eq_mUninit_iff (s := { s with pending := rest }) ha).mpr ⟨k, hk, hrow⟩)
  · obtain ⟨hu, hs⟩ := strictStep_next_iff.mp h
    exact ⟨hs, by simpa [hu] using step_modelFault hs⟩

end Machine
end Sys2Proof
end

section
/-! The family of 20_memory.md: what the host's reads return, what its writes store, the order its operations take effect in,
and the bridge in front of the port. -/

namespace Sys2Proof
namespace Machine

open Claims

/-! ## The host's operations, in order -/

/-- The idle step (60_exceptions.md R221, assumption log 4). -/
theorem step_of_idle {s : State} (h : s.pending = []) : step s = .next s := by
  simp only [step, serveHost, h]

/-- Settles O5: a step serves the head of the host's list, and no operation touches the rest of it. -/
theorem stepServesTheHostInOrder : Obligations.StepServesTheHostInOrder := by
  refine fun s => ⟨step_of_idle, fun a rest hp => step_of_pending hp, fun a d rest hp => step_of_pending hp,
    fun t hs => ?_⟩
  rcases step_next hs with ⟨hp, rfl⟩ | ⟨op, rest, hp, ho⟩
  · rw [hp]; rfl
  · rw [hp]; exact (hostOp_keeps_host ho).1

/-! ## Reads -/

/-- A read of a location that holds `v` answers `v` and changes nothing else. -/
theorem hostRead_of_value {s : State} {a : Addr} {l : Location} {v : Word} (h : location s.nch a = l)
    (hl : access l ≠ .reserved) (hu : readsUnwritten s l = false) (hv : readLocation s l = some v) :
    hostRead a s = .next (answered s v) := by
  rw [hostRead_of_mapped h hl, hu, hv]
  rfl

theorem toNat_phaseBits (p : Phase) : (phaseBits p).toNat = phaseNumber p := by
  cases p <;> rfl

theorem toNat_faultCodeBits (c : FaultCode) : (faultCodeBits c).toNat = codeNumber c := by
  cases c <;> rfl

/-- The number of the `STATUS` word (10_state.md R27). -/
theorem statusWord_eq (s : State) :
    statusWord s = BitVec.ofNat 32 (phaseNumber s.phase + 16 * codeNumber s.fcode + 256 * s.fwe.toNat) := by
  apply BitVec.eq_of_toNat_eq
  have hp := (phaseBits s.phase).isLt
  have hc := (faultCodeBits s.fcode).isLt
  have hw := (BitVec.ofBool s.fwe).isLt
  rw [← toNat_phaseBits, ← toNat_faultCodeBits, ← BitVec.toNat_ofBool]
  simp only [statusWord, BitVec.toNat_append, BitVec.toNat_ofNat]
  rw [Nat.mod_eq_of_lt (by omega), ← Nat.shiftLeft_add_eq_or_of_lt (by omega),
    ← Nat.shiftLeft_add_eq_or_of_lt (by omega), ← Nat.shiftLeft_add_eq_or_of_lt (by omega),
    ← Nat.shiftLeft_add_eq_or_of_lt (by omega)]
  simp only [Nat.shiftLeft_eq]
  omega

/-- Settles O8: each address names its register, and the register's word is the number the statement writes. -/
theorem readsOfGlobalRegisters : Obligations.ReadsOfGlobalRegisters := by
  intro s
  refine ⟨hostRead_of_value (l := .status) rfl (by decide) rfl (congrArg some (statusWord_eq s)),
    hostRead_of_value (l := .faddr) rfl (by decide) rfl (by simp [readLocation]),
    hostRead_of_value (l := .fdata) rfl (by decide) rfl rfl,
    hostRead_of_value (l := .cpufeat) rfl (by decide) rfl rfl,
    hostRead_of_value (l := .cqm) rfl (by decide) rfl ?_,
    hostRead_of_value (l := .qsel) rfl (by decide) rfl (by simp [readLocation]),
    hostRead_of_value (l := .dqsel) rfl (by decide) rfl (by simp [readLocation]),
    hostRead_of_value (l := .cmd) rfl (by decide) rfl rfl⟩
  cases h : s.cqm <;> simp [readLocation, presetBit, h]

theorem location_qtabAddr (nch : Nat) {qp : Nat} (hq : qp < 64) :
    location nch (BitVec.ofNat 16 (0x0100 + qp)) = .qtab qp := by
  have e := toNat_addr (n := 0x0100 + qp) (by omega)
  rw [location_of_qtab (by omega) (by omega), e, Nat.add_sub_cancel_left]

theorem location_shtabAddr (nch : Nat) {qp : Nat} (hq : qp < 64) :
    location nch (BitVec.ofNat 16 (0x0140 + qp)) = .shtab qp := by
  have e := toNat_addr (n := 0x0140 + qp) (by omega)
  rw [location_of_shtab (by omega) (by omega), e, Nat.add_sub_cancel_left]

/-- Settles O9: the address names the entry or the cell, which holds the value. -/
theorem readsOfTables : Obligations.ReadsOfTables := by
  intro s qp i hq hi
  refine ⟨hostRead_of_value (location_qtabAddr _ hq) (by simp [access]) rfl rfl,
    hostRead_of_value (location_shtabAddr _ hq) (by simp [access]) rfl rfl, fun v hv => ?_, fun v hv => ?_, fun v hv => ?_⟩
  · exact hostRead_of_value (location_mfAddr _ hq hi) (by simp [access]) rfl (by simp [readLocation, hv])
  · exact hostRead_of_value (location_biasAddr _ hq hi) (by simp [access]) rfl (by simp [readLocation, hv])
  · exact hostRead_of_value (location_dqmfAddr _ hq hi) (by simp [access]) rfl (by simp [readLocation, hv])

/-- Settles O10: a register is read sign-extended by `hostRead_of_blk`, a flag zero-extended. -/
theorem readsOfChannelWindow : Obligations.ReadsOfChannelWindow := by
  intro s ch i hc hi
  refine ⟨hostRead_of_blk (location_blkAddr s hc hi),
    hostRead_of_value (location_nzAddr s hc) (by simp [access]) rfl ?_⟩
  cases h : s.nzOf ch <;> simp [readLocation, h]

theorem globalLocation_eq_unmapped {n : Nat} (h : globalLocation n = .unmapped) : n = 7 ∨ 9 ≤ n := by
  by_contra hn
  have hcases : n = 0 ∨ n = 1 ∨ n = 2 ∨ n = 3 ∨ n = 4 ∨ n = 5 ∨ n = 6 ∨ n = 8 := by omega
  rcases hcases with rfl | rfl | rfl | rfl | rfl | rfl | rfl | rfl <;> cases h

theorem windowLocation_eq_unmapped {ch off : Nat} (h : windowLocation ch off = .unmapped) : 64 < off := by
  unfold windowLocation at h
  split at h
  · cases h
  · split at h
    · cases h
    · omega

/-- The addresses that name no location are those R205 calls unmapped. -/
theorem unmappedAddr_of_location {nch : Nat} {a : Addr} (h : location nch a = .unmapped) :
    unmappedAddr nch a.toNat := by
  have hlt := a.isLt
  unfold location at h
  simp only at h
  split at h
  · have := globalLocation_eq_unmapped h
    omega
  · iterate 2 (split at h; · cases h)
    split at h
    · omega
    · iterate 3 (split at h; · cases h)
      split at h
      · have := windowLocation_eq_unmapped h
        omega
      · omega

/-- Settles O11: a read that answers reported at most an unwritten register, and one that raised had an unmapped address. -/
theorem readsChangeNothingElse : Obligations.ReadsChangeNothingElse := by
  intro s t a hr
  rcases hostRead_next hr with ⟨v, rfl⟩ | ⟨hp, hacc, rfl⟩
  · refine ⟨rfl, fun hm => ?_, ⟨v, rfl⟩, fun hne => absurd rfl hne⟩
    obtain ⟨ch, i, hloc, hn⟩ := readsUnwritten_iff.mp (used_of_reportUninit_ne hm)
    obtain ⟨hlo, hhi, hoff, haddr⟩ := location_eq_blk hloc
    exact ⟨⟨hlo, hhi, by omega⟩, haddr ▸ hn⟩
  · exact ⟨rfl, fun hm => absurd rfl hm, ⟨0, rfl⟩, fun _ => ⟨unmappedAddr_of_location (access_eq_reserved hacc), hp⟩⟩

/-! ## Legal writes -/

/-- The location is writable in the phase of `s` (20_memory.md R63). -/
def writableNow (s : State) (l : Location) : Prop :=
  (access l = .configOnly ∧ s.phase = .config) ∨ (access l = .readWrite ∧ s.phase ≠ .fault)

/-- A legal write to a location writable in this phase is the store. -/
theorem hostWrite_of_legal {s : State} {a : Addr} {d : Word} {l : Location} (h : location s.nch a = l)
    (hw : writableNow s l) (hl : legal l d = true) : hostWrite a d s = .next (storeLocation l d s) := by
  subst h
  rcases hw with ⟨hacc, hp⟩ | ⟨hacc, hp⟩
  · simp [hostWrite, hacc, hp, writeChecked, hl]
  · simp [hostWrite, hacc, hp, writeChecked, hl]

theorem location_of_cpufeat {nch : Nat} {a : Addr} (h : a.toNat = 3) : location nch a = .cpufeat := by
  rw [location_of_global (by omega), h]; rfl

theorem location_of_cqm {nch : Nat} {a : Addr} (h : a.toNat = 4) : location nch a = .cqm := by
  rw [location_of_global (by omega), h]; rfl

/-- Settles O16: in each region the write is the store of its location, which is one register or one cell. -/
theorem legalConfigWriteStoresTheCell : Obligations.LegalConfigWriteStoresTheCell := by
  intro s a d hp hd
  refine ⟨fun ha => ?_, fun ha => ?_, fun hlo hhi => ?_, fun hlo hhi => ?_, fun hlo hhi => ?_⟩
  · exact hostWrite_of_legal (location_of_cpufeat ha) (.inl ⟨rfl, hp⟩) rfl
  · exact hostWrite_of_legal (location_of_cqm ha) (.inl ⟨rfl, hp⟩) (decide_eq_true (by omega))
  · refine ⟨_, hostWrite_of_legal (location_of_mf hlo (by omega)) (.inl ⟨rfl, hp⟩) (decide_eq_true (by omega)), rfl, ?_⟩
    simp only [storeLocation, mfAddr_of_addr hlo]
    exact ⟨by simp [low16], fun b hb => Memory.read_write_of_ne _ _ hb⟩
  · refine ⟨_, hostWrite_of_legal (location_of_bias hlo (by omega)) (.inl ⟨rfl, hp⟩) (decide_eq_true (by omega)), rfl, ?_⟩
    simp only [storeLocation, biasAddr_of_addr hlo]
    exact ⟨by simp, fun b hb => Memory.read_write_of_ne _ _ hb⟩
  · refine ⟨_, hostWrite_of_legal (location_of_dqmf hlo (by omega)) (.inl ⟨rfl, hp⟩) (decide_eq_true (by omega)), rfl, ?_⟩
    simp only [storeLocation, dqmfAddr_of_addr hlo]
    exact ⟨by simp [low16], fun b hb => Memory.read_write_of_ne _ _ hb⟩

/-- The addresses of `CPUFEAT`, `CQM` and the table memories name locations writable in CONFIG only. -/
theorem access_of_configOnlyAddr {nch : Nat} {a : Addr} (h : configOnlyAddr a.toNat) :
    access (location nch a) = .configOnly := by
  rcases h with h | h | ⟨hlo, hhi⟩
  · rw [location_of_cpufeat h]; rfl
  · rw [location_of_cqm h]; rfl
  · rcases Nat.lt_or_ge a.toNat 0x2000 with h2 | h2
    · rw [location_of_mf hlo h2]; rfl
    rcases Nat.lt_or_ge a.toNat 0x3000 with h3 | h3
    · rw [location_of_bias h2 h3]; rfl
    · rw [location_of_dqmf h3 (by omega)]; rfl

/-- At a writable address the data R65 calls legal is legal. -/
theorem legal_of_legalData {nch : Nat} {a : Addr} {d : Word} (hd : legalData a.toNat d.toNat)
    (ha : configOnlyAddr a.toNat ∨ blkRegAddr nch a.toNat) : legal (location nch a) d = true := by
  rcases hd with h | ⟨h, hd⟩ | ⟨hlo, hhi, hd⟩ | ⟨hlo, hhi, hd⟩ | ⟨hlo, hhi, hd⟩ | ⟨hlo, hd⟩
  · rw [location_of_cpufeat h]; rfl
  · rw [location_of_cqm h]; exact decide_eq_true hd
  · rw [location_of_mf hlo (by omega)]; exact decide_eq_true hd
  · rw [location_of_bias hlo (by omega)]; exact decide_eq_true hd
  · rw [location_of_dqmf hlo (by omega)]; exact decide_eq_true hd
  · obtain ⟨ch, i, hloc, -⟩ := location_of_blkRegAddr (nch := nch) (a := a) (by omega)
    rw [hloc]
    exact decide_eq_true ((eq_sext16_iff d).mpr hd)

/-- A legal word is read back from the location it was stored at. -/
theorem readLocation_storeLocation {l : Location} {d : Word} (s : State) (h : legal l d = true) :
    readLocation (storeLocation l d s) l = some d := by
  cases l with
  | cpufeat => rfl
  | cqm =>
    have hd : d.toNat ≤ 1 := of_decide_eq_true h
    have hd : d = 0 ∨ d = 1 := by bv_omega
    rcases hd with rfl | rfl <;> rfl
  | mf qp i =>
    have hd : 1 ≤ d.toNat ∧ d.toNat ≤ 65535 := of_decide_eq_true h
    simp only [readLocation, storeLocation, Memory.read_write_self, Option.map_some, Option.some.injEq]
    exact BitVec.eq_of_toNat_eq (by simp only [low16, BitVec.toNat_setWidth]; omega)
  | bias qp i =>
    have hd : d.toNat ≤ 32767 := of_decide_eq_true h
    simp only [readLocation, storeLocation, Memory.read_write_self, Option.map_some, Option.some.injEq]
    exact BitVec.eq_of_toNat_eq (by simp only [BitVec.toNat_setWidth]; omega)
  | dqmf qp i =>
    have hd : d.toNat ≤ 65535 := of_decide_eq_true h
    simp only [readLocation, storeLocation, Memory.read_write_self, Option.map_some, Option.some.injEq]
    exact BitVec.eq_of_toNat_eq (by simp only [low16, BitVec.toNat_setWidth]; omega)
  | blk ch i =>
    have hd : d = sext16 (low16 d) := of_decide_eq_true h
    have hat : (storeLocation (.blk ch i) d s).blkAt (blkAddr ch i) = low16 d := blkAt_of_read (Memory.read_write_self _ _ _)
    rw [readLocation, hat, ← hd]
  | _ => cases h

/-- What was just written is no unwritten register. -/
theorem readsUnwritten_storeLocation (s : State) (l : Location) (d : Word) :
    readsUnwritten (storeLocation l d s) l = false := by
  rw [← Bool.not_eq_true, readsUnwritten_iff]
  rintro ⟨ch, i, rfl, hn⟩
  simp [storeLocation] at hn

/-- Settles O18: the write is the store, and the read returns what was stored. -/
theorem legalWriteThenReadReturnsTheWord : Obligations.LegalWriteThenReadReturnsTheWord := by
  intro s a d hd ha
  have hl : legal (location s.nch a) d = true := legal_of_legalData hd (ha.imp And.left And.left)
  have hw : writableNow s (location s.nch a) := by
    refine ha.imp (fun h => ⟨access_of_configOnlyAddr h.1, h.2⟩) fun h => ⟨?_, h.2⟩
    obtain ⟨ch, i, hloc, -⟩ := location_of_blkRegAddr h.1
    rw [hloc]; rfl
  have hnch : (storeLocation (location s.nch a) d s).nch = s.nch := by simp only [State.nch, storeLocation_cfg]
  refine ⟨_, hostWrite_of_legal rfl hw hl, hostRead_of_value (by rw [hnch]) (fun hr => ?_)
    (readsUnwritten_storeLocation s _ d) (readLocation_storeLocation s hl)⟩
  rcases hw with ⟨hacc, -⟩ | ⟨hacc, -⟩ <;> simp [hr] at hacc

/-! ## Block commands of different channels -/

/-- The flags after a block command of channel `ch`: a `QUANT` writes its flag, a `DEQUANT` none (40_quant.md R138,
41_dequant.md R168). -/
def flagsAfter (nz : Vector Bool 16) (ch : Nat) : Option Bool → Vector Bool 16
  | some b => nz.setIfInBounds ch b
  | none => nz

/-- `s` after a block command of channel `ch` that completes with the block `vs`. -/
def State.afterBlock (s : State) (ch : Nat) (vs : List Coef) (flag : Option Bool) : State :=
  { s with
    blk := s.blk.writeRow (blkAddr ch 0) vs
    nz := flagsAfter s.nz ch flag
    modelFault := bif s.blkUnwritten ch then some .mUninit else s.modelFault }

/-- `s'` gives a block command of channel `ch` the inputs that `s` gives it. -/
structure SameInputs (ch : Nat) (s s' : State) : Prop where
  cfg : s'.cfg = s.cfg
  phase : s'.phase = s.phase
  mf : s'.mf = s.mf
  bias : s'.bias = s.bias
  dqmf : s'.dqmf = s.dqmf
  blk : blkRow s' ch = blkRow s ch

theorem SameInputs.refl (ch : Nat) (s : State) : SameInputs ch s s := ⟨rfl, rfl, rfl, rfl, rfl, rfl⟩

theorem SameInputs.symm {ch : Nat} {s s' : State} (h : SameInputs ch s s') : SameInputs ch s' s :=
  ⟨h.cfg.symm, h.phase.symm, h.mf.symm, h.bias.symm, h.dqmf.symm, h.blk.symm⟩

/-- A `QUANT` that completes writes the same block and flag from every state with its inputs. -/
theorem runQuant_of_sameInputs {ch qp : Nat} {s t : State} (h : runQuant ch qp s = .next t) :
    ∃ vs flag, vs.length = 64 ∧ ∀ s', SameInputs ch s s' → runQuant ch qp s' = .next (s'.afterBlock ch vs flag) := by
  obtain ⟨ms, fs, hm, hf, hpacc, -⟩ := runQuant_next_iff.mp h
  refine ⟨quantLevels (s.qtab qp) (blkRow s ch) ms fs, some (nzFlag (quantLevels (s.qtab qp) (blkRow s ch) ms fs)),
    by simp [length_quantLevels, length_of_mfRow hm, length_of_biasRow hf],
    fun s' hs => runQuant_next_iff.mpr ⟨ms, fs, ?_, ?_, ?_, ?_⟩⟩
  · rwa [mfRow, hs.mf]
  · rwa [biasRow, hs.bias]
  · rwa [State.accw, hs.cfg, hs.blk]
  · have hq : s'.qtab qp = s.qtab qp := by rw [State.qtab, hs.cfg]; rfl
    rw [hq, hs.blk]; rfl

/-- A `DEQUANT` that completes writes the same block from every state with its inputs. -/
theorem runDequant_of_sameInputs {ch qp : Nat} {s t : State} (h : runDequant ch qp s = .next t) :
    ∃ vs flag, vs.length = 64 ∧ ∀ s', SameInputs ch s s' → runDequant ch qp s' = .next (s'.afterBlock ch vs flag) := by
  obtain ⟨gs, hg, -⟩ := runDequant_next_iff.mp h
  refine ⟨dequantValues (s.shtab qp) (blkRow s ch) gs, none,
    by simp [length_dequantValues, length_of_dqmfRow hg],
    fun s' hs => runDequant_next_iff.mpr ⟨gs, ?_, ?_⟩⟩
  · rwa [dqmfRow, hs.dqmf]
  · have hsh : s'.shtab qp = s.shtab qp := by rw [State.shtab, hs.cfg]; rfl
    rw [hsh, hs.blk]; rfl

/-- The checks of R104 left a block command that answers from READY without a fault entry. -/
theorem accepted_of_ran {i : Instr} {ch qp : Nat} {s t : State} (hi : i = .quant ch qp ∨ i = .dequant ch qp)
    (hs : s.phase = .ready) (he : exec i s = .next t) (ht : t.phase ≠ .fault) : accepted s ch qp := by
  have hcheck : ∃ run, checkBlockCommand i ch qp s run = .next t := by
    rcases hi with rfl | rfl
    · exact ⟨_, he⟩
    · exact ⟨_, he⟩
  obtain ⟨run, hrun⟩ := hcheck
  rcases checkBlockCommand_next hrun with ⟨hf, -⟩ | ⟨-, code, -, -, rfl, -⟩ | ⟨hp, hc, hq, -⟩
  · simp [hs] at hf
  · simp at ht
  · exact ⟨hp, hc, hq⟩

/-- A block command that completes in READY has one effect on every state with its inputs. -/
theorem exec_of_sameInputs {i : Instr} {ch qp : Nat} {s t : State} (hi : i = .quant ch qp ∨ i = .dequant ch qp)
    (hs : s.phase = .ready) (he : exec i s = .next t) (ht : t.phase ≠ .fault) :
    ∃ vs flag, vs.length = 64 ∧ ∀ s', SameInputs ch s s' → exec i s' = .next (s'.afterBlock ch vs flag) := by
  have hacc := accepted_of_ran hi hs he ht
  have hacc' : ∀ s', SameInputs ch s s' → accepted s' ch qp := fun s' h => by
    simpa only [accepted, State.nch, h.phase, h.cfg] using hacc
  rcases hi with rfl | rfl
  · rw [exec_quant_of_accepted hacc] at he
    obtain ⟨vs, flag, hl, hrun⟩ := runQuant_of_sameInputs he
    exact ⟨vs, flag, hl, fun s' h => by rw [exec_quant_of_accepted (hacc' s' h), hrun s' h]⟩
  · rw [exec_dequant_of_accepted hacc] at he
    obtain ⟨vs, flag, hl, hrun⟩ := runDequant_of_sameInputs he
    exact ⟨vs, flag, hl, fun s' h => by rw [exec_dequant_of_accepted (hacc' s' h), hrun s' h]⟩

/-- A block command leaves the registers of every other channel as they are. -/
theorem read_afterBlock_of_ne {s : State} {ch c : Nat} {vs : List Coef} {flag : Option Bool} (hl : vs.length = 64)
    (hne : c ≠ ch) {i : Nat} (hi : i < 64) :
    (s.afterBlock ch vs flag).blk.read (blkAddr c i) = s.blk.read (blkAddr c i) :=
  Memory.read_writeRow_of_outside _ _ (by simp only [blkAddr, hl]; omega)

/-- A block command leaves a command of another channel its inputs. -/
theorem sameInputs_afterBlock {s : State} {ch c : Nat} {vs : List Coef} {flag : Option Bool} (hl : vs.length = 64)
    (hne : c ≠ ch) : SameInputs c s (s.afterBlock ch vs flag) :=
  ⟨rfl, rfl, rfl, rfl, rfl, blkRow_congr fun _ hi => blkAt_congr (read_afterBlock_of_ne hl hne hi) rfl⟩

theorem blkUnwritten_afterBlock_of_ne {s : State} {ch c : Nat} {vs : List Coef} {flag : Option Bool}
    (hl : vs.length = 64) (hne : c ≠ ch) : (s.afterBlock ch vs flag).blkUnwritten c = s.blkUnwritten c := by
  rw [Bool.eq_iff_iff, blkUnwritten_iff, blkUnwritten_iff]
  exact exists_congr fun i => and_congr_right fun hi => by rw [read_afterBlock_of_ne hl hne hi]

/-- Rows of a canonical memory that do not overlap may be written in either order. -/
theorem Memory.writeRow_comm {w : Nat} {m : Memory w} {a b : Nat} {vs us : List (BitVec w)} (h : Memory.wf m = true)
    (hd : a + vs.length ≤ b ∨ b + us.length ≤ a) :
    Memory.writeRow (Memory.writeRow m a vs) b us = Memory.writeRow (Memory.writeRow m b us) a vs := by
  refine Memory.ext_of_wf (wf_writeRow _ _ _ (wf_writeRow _ _ _ h)) (wf_writeRow _ _ _ (wf_writeRow _ _ _ h)) fun c => ?_
  simp only [read_writeRow]
  by_cases ha : a ≤ c ∧ c < a + vs.length
  · rw [if_neg (by omega), if_pos ha, if_pos ha]
  · rw [if_neg ha, if_neg ha]

theorem flagsAfter_comm (nz : Vector Bool 16) {ch ch' : Nat} (h : ch ≠ ch') (flag flag' : Option Bool) :
    flagsAfter (flagsAfter nz ch flag) ch' flag' = flagsAfter (flagsAfter nz ch' flag') ch flag := by
  cases flag with
  | none => rfl
  | some b =>
    cases flag' with
    | none => rfl
    | some b' => exact Vector.toArray_inj.mp (Array.setIfInBounds_comm b b' h)

/-- The state after block commands of two channels: the second sees of the first neither its registers nor its report. -/
theorem afterBlock_afterBlock {s : State} {ch ch' : Nat} {vs vs' : List Coef} {flag flag' : Option Bool}
    (hl : vs.length = 64) (hne : ch' ≠ ch) :
    (s.afterBlock ch vs flag).afterBlock ch' vs' flag' = { s with
      blk := (s.blk.writeRow (blkAddr ch 0) vs).writeRow (blkAddr ch' 0) vs'
      nz := flagsAfter (flagsAfter s.nz ch flag) ch' flag'
      modelFault := bif s.blkUnwritten ch || s.blkUnwritten ch' then some .mUninit else s.modelFault } := by
  rw [State.afterBlock, blkUnwritten_afterBlock_of_ne hl hne]
  simp only [State.afterBlock]
  cases s.blkUnwritten ch <;> cases s.blkUnwritten ch' <;> rfl

/-- The effects of block commands of two channels commute. -/
theorem afterBlock_comm {s : State} {ch ch' : Nat} {vs vs' : List Coef} {flag flag' : Option Bool} (hne : ch ≠ ch')
    (hwf : s.blk.wf = true) (hl : vs.length = 64) (hl' : vs'.length = 64) :
    (s.afterBlock ch vs flag).afterBlock ch' vs' flag' = (s.afterBlock ch' vs' flag').afterBlock ch vs flag := by
  have hapart : blkAddr ch 0 + vs.length ≤ blkAddr ch' 0 ∨ blkAddr ch' 0 + vs'.length ≤ blkAddr ch 0 := by
    simp only [blkAddr]
    omega
  rw [afterBlock_afterBlock hl hne.symm, afterBlock_afterBlock hl' hne, Memory.writeRow_comm hwf hapart,
    flagsAfter_comm s.nz hne, Bool.or_comm]

/-- Settles O50: each command's effect is the same from the state the other leaves, and the two effects commute. -/
theorem commandsOfDifferentChannelsCommute : Obligations.CommandsOfDifferentChannelsCommute := by
  intro s t u ch qp ch' qp' i j hi hj hne hwf hs hei hej hu
  have ht : t.phase ≠ .fault := fun ht => by
    obtain rfl : t = u := by simpa [exec_of_fault j ht] using hej
    simp [ht] at hu
  obtain ⟨vs, flag, hl, heffect⟩ := exec_of_sameInputs hi hs hei ht
  obtain rfl : s.afterBlock ch vs flag = t := by simpa [heffect s (.refl _ _)] using hei
  obtain ⟨vs', flag', hl', heffect'⟩ := exec_of_sameInputs hj (s := s.afterBlock ch vs flag) hs hej (by simp [hu])
  obtain rfl : (s.afterBlock ch vs flag).afterBlock ch' vs' flag' = u := by simpa [heffect' _ (.refl _ _)] using hej
  refine ⟨s.afterBlock ch' vs' flag', heffect' s (sameInputs_afterBlock hl hne.symm).symm, ?_⟩
  rw [heffect _ (sameInputs_afterBlock hl' hne), afterBlock_comm hne hwf hl hl']

/-! ## The bridge -/

theorem bridge_load_eq_some_iff {base a size : Nat} {op : HostOp} :
    bridge base (.load a size) = some op ↔ size = 4 ∧ ∃ x, busWordAddr base a = some x ∧ op = .read x := by
  by_cases h : size = 4 <;> simp [bridge, h, eq_comm]

theorem bridge_store_eq_some_iff {base a : Nat} {bytes : List (BitVec 8)} {op : HostOp} :
    bridge base (.store a bytes) = some op ↔ ∃ b0 b1 b2 b3, bytes = [b0, b1, b2, b3]
      ∧ ∃ x, busWordAddr base a = some x ∧ op = .write x (wordOfBytes b0 b1 b2 b3) := by
  constructor
  · intro h
    unfold bridge at h
    split at h
    · cases ‹BusAccess.store _ _ = _›
    · rename_i b0 b1 b2 b3 he
      cases he
      obtain ⟨x, hx, rfl⟩ := Option.map_eq_some_iff.mp h
      exact ⟨b0, b1, b2, b3, rfl, x, hx, rfl⟩
    · cases h
  · rintro ⟨b0, b1, b2, b3, rfl, x, hx, rfl⟩
    simp [bridge, hx]

/-- The four bytes of a word make the word. -/
theorem wordOfBytes_bytesOfWord (w : Word) :
    wordOfBytes (w.extractLsb' 0 8) (w.extractLsb' 8 8) (w.extractLsb' 16 8) (w.extractLsb' 24 8) = w := by
  have hw := w.isLt
  rw [wordOfBytes_eq]
  apply BitVec.eq_of_toNat_eq
  simp only [BitVec.toNat_ofNat, BitVec.extractLsb'_toNat, Nat.shiftRight_eq_div_pow]
  omega

/-- A word address with a property, by the words of the window. -/
theorem exists_busWordAddr_iff {base a : Nat} {P : Addr → Prop} :
    (∃ x, busWordAddr base a = some x ∧ P x) ↔ a % 4 = 0 ∧ ∃ w < 65536, a = base + 4 * w ∧ P (BitVec.ofNat 16 w) := by
  simp only [busWordAddr_eq_some_iff]
  constructor
  · rintro ⟨x, ⟨ha, w, hw, haddr, rfl⟩, hP⟩
    exact ⟨ha, w, hw, haddr, hP⟩
  · rintro ⟨ha, w, hw, haddr, hP⟩
    exact ⟨_, ⟨ha, w, hw, haddr, rfl⟩, hP⟩

/-- Settles O57: the bridge forwards what `busWordAddr` gives a word address, and the four bytes make the number. -/
theorem bridgeForwardsAlignedWordsOnly : Obligations.BridgeForwardsAlignedWordsOnly := by
  refine ⟨fun base a size op => ?_, fun base a bytes op => ?_, fun base w hb hw => ?_,
    fun w => ⟨_, _, _, _, rfl, wordOfBytes_bytesOfWord w⟩⟩
  · rw [bridge_load_eq_some_iff, exists_busWordAddr_iff]
  · simp only [bridge_store_eq_some_iff, exists_busWordAddr_iff, wordOfBytes_eq]
  · exact bridge_load_eq_some_iff.mpr ⟨rfl, exists_busWordAddr_iff.mpr ⟨by omega, w, hw, rfl, rfl⟩⟩

end Machine
end Sys2Proof
end

section
/-! The family of 30_encoding.md: the decoder against the encoder and against the opcode map, and the checks a write to `CMD`
makes. -/

namespace Sys2Proof

/-! ## The words of the commands -/

/-- R110: the sum of a format C word's fields is their bitwise OR, because the fields do not overlap. -/
theorem formatC_eq_or {op ch qp : Nat} (hop : op < 16) (hch : ch < 16) (hqp : qp < 256) :
    formatC op ch qp = BitVec.ofNat 32 (op * 2 ^ 28) ||| (BitVec.ofNat 32 ch <<< 24) ||| BitVec.ofNat 32 qp := by
  have hopch : op * 2 ^ 28 ||| ch * 2 ^ 24 = op * 2 ^ 28 + ch * 2 ^ 24 := by
    rw [mul_comm op, Nat.two_pow_add_eq_or_of_lt (by omega)]
  have hlow : (op * 2 ^ 28 + ch * 2 ^ 24) ||| qp = op * 2 ^ 28 + ch * 2 ^ 24 + qp := by
    rw [show op * 2 ^ 28 + ch * 2 ^ 24 = 2 ^ 24 * (op * 2 ^ 4 + ch) by ring, Nat.two_pow_add_eq_or_of_lt (by omega)]
  apply BitVec.eq_of_toNat_eq
  rw [toNat_formatC hop hch hqp, BitVec.toNat_or, BitVec.toNat_or, BitVec.toNat_shiftLeft, Nat.shiftLeft_eq]
  simp only [BitVec.toNat_ofNat]
  rw [Nat.mod_eq_of_lt (by omega : op * 2 ^ 28 < 2 ^ 32), Nat.mod_eq_of_lt (by omega : ch < 2 ^ 32),
    Nat.mod_eq_of_lt (by omega : ch * 2 ^ 24 < 2 ^ 32), Nat.mod_eq_of_lt (by omega : qp < 2 ^ 32), hopch, hlow]

/-- A word whose zero field is 0 is the format C word of its own fields. -/
theorem formatC_of_fields {d : Word} (hz : d.toNat / 2 ^ 8 % 65536 = 0) :
    formatC (d.toNat / 2 ^ 28) (d.toNat / 2 ^ 24 % 16) (d.toNat % 256) = d := by
  have hd := d.isLt
  apply BitVec.eq_of_toNat_eq
  rw [toNat_formatC (by omega) (by omega) (by omega)]
  omega

theorem formatC_eq_iff {d : Word} {op ch qp : Nat} (hop : op < 16) :
    (ch < 16 ∧ qp < 256) ∧ formatC op ch qp = d ↔
      d.toNat / 2 ^ 28 = op ∧ d.toNat / 2 ^ 8 % 65536 = 0 ∧ ch = d.toNat / 2 ^ 24 % 16 ∧ qp = d.toNat % 256 := by
  constructor
  · rintro ⟨⟨hch, hqp⟩, rfl⟩
    obtain ⟨h1, h2, h3, h4⟩ := formatC_fields hop hch hqp
    exact ⟨h1, h3, h2.symm, h4.symm⟩
  · rintro ⟨rfl, hz, rfl, rfl⟩
    exact ⟨⟨Nat.mod_lt _ (by decide), Nat.mod_lt _ (by decide)⟩, formatC_of_fields hz⟩

/-! ## What a word decodes to, by its fields -/

/-- The words R105 calls illegal, by their fields. -/
def IllegalWord (d : Word) : Prop :=
  (d.toNat / 2 ^ 28 ≠ 1 ∧ d.toNat / 2 ^ 28 ≠ 2 ∧ d.toNat / 2 ^ 28 ≠ 3) ∨ d.toNat / 2 ^ 8 % 65536 ≠ 0
    ∨ (d.toNat / 2 ^ 28 = 1 ∧ (d.toNat / 2 ^ 24 % 16 ≠ 0 ∨ d.toNat % 256 ≠ 0))

/-- The four things the decoder can do. -/
theorem decode_cases (d : Word) :
    (IllegalWord d ∧ ∃ e, decode d = .error e)
    ∨ (d.toNat / 2 ^ 28 = 1 ∧ d.toNat / 2 ^ 8 % 65536 = 0 ∧ d.toNat / 2 ^ 24 % 16 = 0 ∧ d.toNat % 256 = 0
        ∧ decode d = .ok .dispatch)
    ∨ (d.toNat / 2 ^ 28 = 2 ∧ d.toNat / 2 ^ 8 % 65536 = 0
        ∧ decode d = .ok (.quant (d.toNat / 2 ^ 24 % 16) (d.toNat % 256)))
    ∨ (d.toNat / 2 ^ 28 = 3 ∧ d.toNat / 2 ^ 8 % 65536 = 0
        ∧ decode d = .ok (.dequant (d.toNat / 2 ^ 24 % 16) (d.toNat % 256))) := by
  rw [decode_eq]
  split_ifs with hop hz h1 hopd h2
  · exact .inl ⟨.inl hop, _, rfl⟩
  · exact .inl ⟨.inr (.inl hz), _, rfl⟩
  · exact .inl ⟨.inr (.inr ⟨h1, hopd⟩), _, rfl⟩
  · exact .inr (.inl ⟨h1, by omega, by omega, by omega, rfl⟩)
  · exact .inr (.inr (.inl ⟨h2, by omega, rfl⟩))
  · exact .inr (.inr (.inr ⟨by omega, by omega, rfl⟩))

theorem decode_of_illegalWord {d : Word} (h : IllegalWord d) : ∃ e, decode d = .error e := by
  rcases decode_cases d with ⟨-, he⟩ | ⟨h1, hz, hch, hqp, -⟩ | ⟨h2, hz, -⟩ | ⟨h3, hz, -⟩
  · exact he
  all_goals
    unfold IllegalWord at h
    omega

/-- R110: a word decodes to a command exactly when it is that command's word. -/
theorem decode_eq_ok_iff {d : Word} {i : Instr} : decode d = .ok i ↔ i.wf = true ∧ encode i = d := by
  constructor
  · intro hd
    rcases decode_cases d with ⟨-, e, he⟩ | ⟨h1, hz, hch, hqp, he⟩ | ⟨h2, hz, he⟩ | ⟨h3, hz, he⟩
    · simp [he] at hd
    · obtain rfl := Except.ok.inj (he.symm.trans hd)
      exact ⟨rfl, by rw [← formatC_of_fields hz, h1, hch, hqp]; rfl⟩
    · obtain rfl := Except.ok.inj (he.symm.trans hd)
      exact ⟨by simp [Instr.wf, chFits, qpFits, Nat.mod_lt], (congrArg (formatC · _ _) h2.symm).trans (formatC_of_fields hz)⟩
    · obtain rfl := Except.ok.inj (he.symm.trans hd)
      exact ⟨by simp [Instr.wf, chFits, qpFits, Nat.mod_lt], (congrArg (formatC · _ _) h3.symm).trans (formatC_of_fields hz)⟩
  · rintro ⟨hwf, rfl⟩
    exact decode_encode hwf

theorem decode_eq_quant_iff {d : Word} {ch qp : Nat} :
    decode d = .ok (.quant ch qp) ↔
      d.toNat / 2 ^ 28 = 2 ∧ d.toNat / 2 ^ 8 % 65536 = 0 ∧ ch = d.toNat / 2 ^ 24 % 16 ∧ qp = d.toNat % 256 := by
  rw [decode_eq_ok_iff, ← formatC_eq_iff (by decide)]
  simp [Instr.wf, chFits, qpFits, encode]

theorem decode_eq_dequant_iff {d : Word} {ch qp : Nat} :
    decode d = .ok (.dequant ch qp) ↔
      d.toNat / 2 ^ 28 = 3 ∧ d.toNat / 2 ^ 8 % 65536 = 0 ∧ ch = d.toNat / 2 ^ 24 % 16 ∧ qp = d.toNat % 256 := by
  rw [decode_eq_ok_iff, ← formatC_eq_iff (by decide)]
  simp [Instr.wf, chFits, qpFits, encode]

/-- The word of a block command with operands that fit decodes to it. -/
theorem decode_encode_block {i : Instr} {ch qp : Nat} (hi : i = .quant ch qp ∨ i = .dequant ch qp) (hch : ch < 16)
    (hqp : qp < 256) : decode (encode i) = .ok i := by
  rcases hi with rfl | rfl <;> exact decode_encode (by simp [Instr.wf, chFits, qpFits, hch, hqp])

/-- Settles O3: the decoder evaluated on each word. -/
theorem exampleWordsDecode : Obligations.ExampleWordsDecode := by
  unfold Obligations.ExampleWordsDecode
  decide

/-- Settles O2: a word selects a row of the opcode map by its `op` and its zero field, which are what the decoder tests. -/
theorem decodeFollowsTheOpcodeMap : Obligations.DecodeFollowsTheOpcodeMap := by
  intro d
  have hdispatch : decode d = .ok .dispatch ↔ d &&& 0xFFFFFFFF#32 = 0x10000000#32 := by
    rw [decode_eq_ok_iff, show (0xFFFFFFFF#32 : Word) = BitVec.allOnes 32 from rfl, BitVec.and_allOnes]
    exact ⟨fun h => h.2.symm, fun h => ⟨rfl, h.symm⟩⟩
  have hquant : (∃ ch qp, decode d = .ok (.quant ch qp)) ↔ d &&& 0xF0FFFF00#32 = 0x20000000#32 := by
    simp only [decode_eq_quant_iff, exists_and_left, exists_eq, and_true]
    exact (masked_eq_iff d (k := 2) (by decide)).symm
  have hdequant : (∃ ch qp, decode d = .ok (.dequant ch qp)) ↔ d &&& 0xF0FFFF00#32 = 0x30000000#32 := by
    simp only [decode_eq_dequant_iff, exists_and_left, exists_eq, and_true]
    exact (masked_eq_iff d (k := 3) (by decide)).symm
  refine ⟨hdispatch, hquant, hdequant, fun ch qp hd => ?_, fun h1 h2 h3 => ?_⟩
  · rcases hd with hd | hd
    · exact (decode_eq_quant_iff.mp hd).2.2
    · exact (decode_eq_dequant_iff.mp hd).2.2
  · match hd : decode d with
    | .error e => exact ⟨e, rfl⟩
    | .ok .dispatch => exact absurd (hdispatch.mp hd) h1
    | .ok (.quant ch qp) => exact absurd (hquant.mp ⟨ch, qp, hd⟩) h2
    | .ok (.dequant ch qp) => exact absurd (hdequant.mp ⟨ch, qp, hd⟩) h3

namespace Machine

open Claims

/-! ## What a write to `CMD` does -/

/-- Steps 1 to 3 of R104. -/
theorem hostWrite_cmd_of_illegalWord {d : Word} {s : State} (h : IllegalWord d) (hs : s.phase ≠ .fault) :
    hostWrite cmdAddr d s = .next (faulted s .badCmd cmdAddr d true) := by
  obtain ⟨e, he⟩ := decode_of_illegalWord h
  simp [hostWrite, hs, location_cmdAddr, access, execute, he, raiseFault]

/-- Steps 4 and 8 of R104 for `DISPATCH`. -/
theorem hostWrite_cmd_of_dispatch {d : Word} {s : State} (hd : decode d = .ok .dispatch) :
    hostWrite cmdAddr d s =
      if s.phase = .ready then .next (faulted s .badPhase cmdAddr d true) else exec .dispatch s := by
  obtain ⟨-, rfl⟩ := decode_eq_ok_iff.mp hd
  rw [hostWrite_cmd_of_decode hd]
  split_ifs with hs
  · simp [exec, execDispatch, hs, raiseCommand, raiseFault]
  · rfl

/-- Steps 5 to 8 of R104: the checks of a block command's phase and operands. -/
theorem hostWrite_cmd_of_block {d : Word} {i : Instr} {ch qp : Nat} {s : State} (hd : decode d = .ok i)
    (hi : i = .quant ch qp ∨ i = .dequant ch qp) (hs : s.phase ≠ .fault) :
    hostWrite cmdAddr d s =
      if s.phase = .config then .next (faulted s .badPhase cmdAddr d true)
      else if s.nch ≤ ch then .next (faulted s .badCh cmdAddr d true)
      else if 64 ≤ qp then .next (faulted s .qpRange cmdAddr d true)
      else exec i s := by
  obtain ⟨-, rfl⟩ := decode_eq_ok_iff.mp hd
  obtain ⟨run, hrun⟩ : ∃ run, exec i s = checkBlockCommand i ch qp s run := by
    rcases hi with rfl | rfl
    · exact ⟨runQuant ch qp, rfl⟩
    · exact ⟨runDequant ch qp, rfl⟩
  rw [hostWrite_cmd_of_decode hd, hrun]
  cases hp : s.phase with
  | fault => exact absurd hp hs
  | config => simp [checkBlockCommand, hp, raiseCommand, raiseFault]
  | ready => simp +contextual [checkBlockCommand, hp, raiseCommand, raiseFault]

/-- Settles O6: an illegal word fails one of the first three checks; a legal one goes to its command, which makes the others. -/
theorem executeChecksInOrder : Obligations.ExecuteChecksInOrder := by
  intro s d op ch z qp raised
  refine ⟨fun hs => by simp [hostWrite, hs], fun hs => ?_⟩
  rcases decode_cases d with ⟨hill, -⟩ | ⟨(hop : op = 1), (hz : z = 0), (hch : ch = 0), (hqp : qp = 0), hd⟩ |
    ⟨(hop : op = 2), (hz : z = 0), (hd : decode d = .ok (.quant ch qp))⟩ |
    ⟨(hop : op = 3), (hz : z = 0), (hd : decode d = .ok (.dequant ch qp))⟩
  · refine (hostWrite_cmd_of_illegalWord hill hs).trans (?_ : raised .badCmd = _)
    rcases hill with (hop : op ≠ 1 ∧ op ≠ 2 ∧ op ≠ 3) | (hz : z ≠ 0) | ⟨(hop : op = 1), (hopd : ch ≠ 0 ∨ qp ≠ 0)⟩
    · rw [if_pos hop]
    · simp [hz]
    · simp [hop, hopd]
  · refine (hostWrite_cmd_of_dispatch hd).trans ?_
    simp [hop, hz, hch, hqp, raised, cmdAddr]
  · refine (hostWrite_cmd_of_block hd (.inl rfl) hs).trans ?_
    simp [hop, hz, raised, cmdAddr]
  · refine (hostWrite_cmd_of_block hd (.inr rfl) hs).trans ?_
    simp [hop, hz, raised, cmdAddr]

/-- Settles O1: a word and its command determine each other, and the encoder's sum is the rule's bitwise OR. -/
theorem encodeAndDecodeAgree : Obligations.EncodeAndDecodeAgree := by
  obtain ⟨-, -, -, -, -, hzero, -, hoperand, -, hop, -⟩ := exampleWordsDecode
  refine ⟨rfl, fun ch hch qp hqp => ⟨formatC_eq_or (op := 2) (by decide) hch hqp, formatC_eq_or (op := 3) (by decide) hch hqp⟩,
    fun i => decode_encode, fun d i => decode_eq_ok_iff.mp, fun d d' i hd hd' => ?_, rfl, rfl, rfl,
    by simp [hzero], by simp [hoperand], by simp [hop], fun s hs hch => ?_⟩
  · exact (decode_eq_ok_iff.mp hd).2.symm.trans (decode_eq_ok_iff.mp hd').2
  · exact (hostWrite_cmd_of_block (i := .quant 1 64) rfl (.inl rfl) (by simp [hs])).trans
      (by simp [hs, Nat.not_le.mpr hch, cmdAddr])

/-- Settles O7: an illegal word stops at the decoder, and a block command's word goes to the checks of its operands. -/
theorem illegalWordsRaiseBadCmd : Obligations.IllegalWordsRaiseBadCmd := by
  refine ⟨fun s d hs hd => hostWrite_cmd_of_illegalWord (by unfold IllegalWord; omega) hs,
    fun ch qp hch hqp => ⟨decode_encode_block (.inl rfl) hch hqp, decode_encode_block (.inr rfl) hch hqp⟩,
    fun s ch qp i hs hch hqp hi => ?_⟩
  have hw := hostWrite_cmd_of_block (s := s) (decode_encode_block hi hch hqp) hi (by simp [hs])
  exact ⟨fun habsent => hw.trans (by simp [hs, habsent, cmdAddr]),
    fun hexists hrange => hw.trans (by simp [hs, Nat.not_le.mpr hexists, hrange, cmdAddr])⟩

end Machine
end Sys2Proof
end

section
/-! The family of 40_quant.md: the arithmetic of one position, the accumulator precondition, and what a `QUANT` leaves in its
block and its flag. -/

namespace Sys2Proof
namespace Machine

open Claims

/-! ## The arithmetic of one position -/

theorem shr_mono {a b : Int} (h : a ≤ b) (n : Nat) : shr a n ≤ shr b n :=
  Int.ediv_le_ediv (by positivity) h

theorem shr_nonneg {a : Int} (h : 0 ≤ a) (n : Nat) : 0 ≤ shr a n :=
  Int.ediv_nonneg h (by positivity)

theorem level_of_pos {c : Int} (h : 0 < c) (mf f q : Int) : level c mf f q = qmag c mf f q := if_pos h

theorem level_of_nonpos {c : Int} (h : c ≤ 0) (mf f q : Int) : level c mf f q = -(qmag (-c) mf f q) :=
  if_neg (not_lt.mpr h)

/-- The model's level is the rule's, whose powers of two are written out. -/
theorem level_eq_ruleLevel (c mf f q : Int) : level c mf f q = ruleLevel c mf f q := by
  norm_num [level, ruleLevel, qmag, shr]

/-- R139: without a coefficient the bias alone is shifted. -/
theorem qmag_zero (mf f q : Int) : qmag 0 mf f q = f / 32768 := by
  norm_num [qmag, shr]

/-- R144: with a table value of 0 the bias alone is shifted. -/
theorem qmag_of_table_zero (a mf f : Int) : qmag a mf f 0 = f / 32768 := by
  norm_num [qmag, shr]

/-- R139: the bias of R36 is below one unit of the second shift. -/
theorem level_zero {f : Int} (h0 : 0 ≤ f) (h1 : f ≤ 32767) (mf q : Int) : level 0 mf f q = 0 := by
  rw [level_of_nonpos le_rfl, neg_zero, qmag_zero]
  omega

theorem level_of_table_zero {f : Int} (h0 : 0 ≤ f) (h1 : f ≤ 32767) (c mf : Int) : level c mf f 0 = 0 := by
  have hbias : f / 32768 = 0 := by omega
  simp [level, qmag_of_table_zero, hbias]

/-- Settles O32: products of non-negative factors, sums and shifts are non-decreasing. -/
theorem qmagIsMonotone : Obligations.QmagIsMonotone := by
  intro a a' mf mf' f f' q q' ha haa hmf hmm hff hq hqq
  have hp : a * mf + 2 ^ 18 ≤ a' * mf' + 2 ^ 18 := by gcongr; omega
  have ht : shr (a * mf + 2 ^ 18) 19 ≤ shr (a' * mf' + 2 ^ 18) 19 := shr_mono hp 19
  have ht0 : 0 ≤ shr (a * mf + 2 ^ 18) 19 := shr_nonneg (by positivity) 19
  have hu : f + shr (a * mf + 2 ^ 18) 19 * q ≤ f' + shr (a' * mf' + 2 ^ 18) 19 * q' := by
    gcongr
    exact ht0.trans ht
  exact shr_mono hu 15

/-- Settles O31: both signs go through the magnitude of the positive one. -/
theorem quantIsSignSymmetric : Obligations.QuantIsSignSymmetric := by
  have hzero : ∀ mf f q : Int, level 0 mf f q = -(f / 32768) := fun mf f q => by
    rw [level_of_nonpos le_rfl, neg_zero, qmag_zero]
  refine ⟨fun c mf f q hc _ => ?_, hzero, fun mf f q h0 h1 => level_zero h0 h1 mf q, fun mf f q h0 h1 => ?_⟩
  · rw [level_of_pos (c := c) (by omega), level_of_nonpos (c := -c) (by omega), neg_neg]
  · rw [hzero]
    omega

/-! ## Bounds (40_quant.md R136) -/

/-- The magnitude of a legal input lies between those of the least and of the greatest one. -/
theorem qmag_bounds {a mf f q : Int} (ha : 0 ≤ a) (ha' : a ≤ 32768) (hmf : 0 ≤ mf) (hmf' : mf ≤ 65535) (hf : 0 ≤ f)
    (hf' : f ≤ 32767) (hq : 0 ≤ q) (hq' : q ≤ 65535) : 0 ≤ qmag a mf f q ∧ qmag a mf f q ≤ 8192 :=
  ⟨qmagIsMonotone 0 a 0 mf 0 f 0 q le_rfl ha le_rfl hmf hf le_rfl hq,
    qmagIsMonotone a 32768 mf 65535 f 32767 q 65535 ha ha' hmf hmf' hf' hq hq'⟩

theorem level_bounds {c mf f q : Int} (hc : -32768 ≤ c) (hc' : c ≤ 32768) (hmf : 0 ≤ mf) (hmf' : mf ≤ 65535)
    (hf : 0 ≤ f) (hf' : f ≤ 32767) (hq : 0 ≤ q) (hq' : q ≤ 65535) : -8192 ≤ level c mf f q ∧ level c mf f q ≤ 8192 := by
  rcases lt_or_ge 0 c with hpos | hneg
  · have := qmag_bounds hpos.le hc' hmf hmf' hf hf' hq hq'
    rw [level_of_pos hpos]
    omega
  · have := qmag_bounds (neg_nonneg.mpr hneg) (by omega) hmf hmf' hf hf' hq hq'
    rw [level_of_nonpos hneg]
    omega

/-- Settles O30: each intermediate is bounded by the bounds of the one before it. -/
theorem quantIntermediateBounds : Obligations.QuantIntermediateBounds := by
  intro a mf f q ha ha' hmf hmf' hf hf' hq hq' p t u
  have hmf0 : 0 ≤ mf := by omega
  have hprod : a * mf ≤ 32768 * 65535 := mul_le_mul ha' hmf' hmf0 (by norm_num)
  have hprod0 : 0 ≤ a * mf := mul_nonneg ha hmf0
  have hp : 2 ^ 18 ≤ p ∧ p ≤ 2147713024 := by omega
  have ht_eq : t = p / 524288 := by norm_num [t, shr]
  have ht : 0 ≤ t ∧ t ≤ 4096 := by omega
  have htq : t * q ≤ 4096 * 65535 := mul_le_mul ht.2 hq' hq (by norm_num)
  have htq0 : 0 ≤ t * q := mul_nonneg ht.1 hq
  exact ⟨hp, ht, by omega, by omega, qmag_bounds ha ha' hmf0 hmf' hf hf' hq hq',
    level_bounds (by omega) ha' hmf0 hmf' hf hf' hq hq', level_bounds (by omega) (by omega) hmf0 hmf' hf hf' hq hq'⟩

/-- A level of stored operands fits its register. -/
theorem toInt_ofInt_level (s : State) (qp : Nat) (c : Coef) (m : Mult) (f : Bias) :
    (BitVec.ofInt 16 (level c.toInt m.toNat f.toNat (s.qtab qp))).toInt = level c.toInt m.toNat f.toNat (s.qtab qp) := by
  have := coef_toInt_bounds c
  have := m.isLt
  have := f.isLt
  have := qtab_le s qp
  have := level_bounds (c := c.toInt) (mf := m.toNat) (f := f.toNat) (q := s.qtab qp) (by omega) (by omega) (by omega)
    (by omega) (by omega) (by omega) (by omega) (by omega)
  exact toInt_ofInt_of_range (by omega) (by omega)

/-! ## The accumulator precondition (40_quant.md R135) -/

theorem pacc_iff (accw : Nat) (c mf : Int) : pacc accw c mf = true ↔ rulePacc accw c mf := by
  rw [pacc, decide_eq_true_iff, Int.natCast_natAbs]

/-- The accumulator of a well-formed configuration (00_scope.md R8). -/
theorem le_accw (s : State) : 32 ≤ s.cfg.val.accw := by
  obtain ⟨-, -, -, -, haccw, -⟩ := (Config.wf_iff _).mp s.cfg.property
  exact haccw

/-- A wider accumulator holds whatever a narrower one does. -/
theorem rulePacc_mono {w w' : Nat} {c mf : Int} (hw : w ≤ w') (h : rulePacc w c mf) : rulePacc w' c mf := by
  have hpow : (2 : Int) ^ (w - 1) ≤ 2 ^ (w' - 1) := pow_le_pow_right₀ (by norm_num) (by omega)
  exact h.trans (by omega)

theorem rulePacc_32_iff (c mf : Int) : rulePacc 32 c mf ↔ |c| * mf ≤ 2147221503 := by
  norm_num [rulePacc]
  omega

/-- The greatest first product under a bound on the multiplier. -/
theorem abs_mul_le (c : Coef) {m : Mult} {k : Nat} (h : m.toNat ≤ k) : |c.toInt| * m.toNat ≤ 32768 * k := by
  have := coef_toInt_bounds c
  have hc : |c.toInt| ≤ 32768 := abs_le.mpr ⟨by omega, by omega⟩
  gcongr

/-- A zero coefficient keeps the precondition with every multiplier. -/
theorem rulePacc_zero (s : State) (mf : Int) : rulePacc s.cfg.val.accw 0 mf :=
  rulePacc_mono (le_accw s) ((rulePacc_32_iff 0 mf).mpr (by simp))

theorem paccRow_iff {s : State} {ch : Nat} {c : Nat → Coef} (hc : blkHolds s ch c) (m : Nat → Mult) :
    paccRow s.accw (blkRow s ch) ((List.range 64).map m) = true
      ↔ ∀ i < 64, rulePacc s.cfg.val.accw (c i).toInt (m i).toNat := by
  simp only [blkRow_of_cells hc, paccRow_map_iff, pacc_iff, State.accw]

theorem exec_quant_of_not_pacc {s : State} {ch qp : Nat} {c : Nat → Coef} {m : Nat → Mult} {f : Nat → Bias}
    (ha : accepted s ch qp) (hc : blkHolds s ch c) (hm : mfHolds s qp m) (hf : biasHolds s qp f)
    (hp : ∃ i < 64, ¬ rulePacc s.cfg.val.accw (c i).toInt (m i).toNat) :
    exec (.quant ch qp) s = .fault (bif s.blkUnwritten ch then .mUninit else .mQovf) := by
  rw [exec_quant_of_accepted ha]
  refine runQuant_of_not_pacc (mfRow_of_cells hm) (biasRow_of_cells hf) (Bool.eq_false_iff.mpr fun hrow => ?_)
  obtain ⟨i, hi, hnot⟩ := hp
  exact hnot ((paccRow_iff hc m).mp hrow i hi)

/-- Settles O35: where the command stops is the lemma above; where the precondition holds is a bound on the first product. -/
theorem quantOverflowStops : Obligations.QuantOverflowStops := by
  refine ⟨fun s ch qp c m f ha hc hm hf hp => ⟨fun hwritten => ?_, fun hunwritten => ?_⟩,
    fun c m => rulePacc_32_iff _ _, fun c m hle => (rulePacc_32_iff _ _).mpr ?_, ?_,
    fun accw c m hw => rulePacc_mono hw ?_⟩
  · rw [exec_quant_of_not_pacc ha hc hm hf hp, (blkUnwritten_eq_false_iff s ch).mpr hwritten, cond_false]
  · rw [exec_quant_of_not_pacc ha hc hm hf hp, (blkUnwritten_iff s ch).mpr hunwritten, cond_true]
  · have := abs_mul_le c hle
    omega
  · simp only [rulePacc_32_iff]
    norm_num
  · have := abs_mul_le c (Nat.le_of_lt_succ m.isLt)
    norm_num [rulePacc]
    omega

/-! ## What a `QUANT` leaves in its block and its flag (40_quant.md R137, R138) -/

theorem quantLevels_map (q : Nat) (c : Nat → Coef) (m : Nat → Mult) (f : Nat → Bias) (n : Nat) :
    quantLevels q ((List.range n).map c) ((List.range n).map m) ((List.range n).map f)
      = (List.range n).map fun i => BitVec.ofInt 16 (level (c i).toInt (m i).toNat (f i).toNat q) := by
  simp [quantLevels, List.zip_map', List.zipWith_map, List.zipWith_self]

/-- The flag of levels that fit their registers. -/
theorem nzFlag_map_ofInt {v : Nat → Int} (hfits : ∀ i, (BitVec.ofInt 16 (v i)).toInt = v i) (n : Nat) :
    nzFlag ((List.range n).map fun i => BitVec.ofInt 16 (v i)) = true ↔ ∃ i < n, v i ≠ 0 := by
  have hne : ∀ i, BitVec.ofInt 16 (v i) ≠ 0 ↔ v i ≠ 0 := fun i => by
    simp [← BitVec.toInt_inj, hfits]
  simp only [nzFlag_eq_true_iff, List.mem_map, List.mem_range, exists_exists_and_eq_and, hne]

/-- Over written rows that keep the precondition, a `QUANT` completes. -/
theorem runQuant_of_pacc {ch qp : Nat} {s : State} {ms : List Mult} {fs : List Bias} (hm : mfRow s qp = some ms)
    (hf : biasRow s qp = some fs) (hp : paccRow s.accw (blkRow s ch) ms = true) :
    ∃ t, runQuant ch qp s = .next t ∧ t.phase = s.phase :=
  ⟨_, runQuant_next_iff.mpr ⟨ms, fs, hm, hf, hp, rfl⟩, rfl⟩

/-- A `QUANT` that completes leaves the levels of its rows in the block and their flag in the flag. -/
theorem runQuant_block {ch qp : Nat} {s t : State} {ms : List Mult} {fs : List Bias} (ha : accepted s ch qp)
    (hm : mfRow s qp = some ms) (hf : biasRow s qp = some fs) (h : runQuant ch qp s = .next t) :
    (∀ i < 64, (quantLevels (s.qtab qp) (blkRow s ch) ms fs)[i]? = some (t.blkAt (blkAddr ch i)))
      ∧ t.nzOf ch = nzFlag (quantLevels (s.qtab qp) (blkRow s ch) ms fs) := by
  obtain ⟨ms', fs', hm', hf', -, rfl⟩ := runQuant_next_iff.mp h
  obtain rfl : ms = ms' := Option.some.inj (hm.symm.trans hm')
  obtain rfl : fs = fs' := Option.some.inj (hf.symm.trans hf')
  have hlen : (quantLevels (s.qtab qp) (blkRow s ch) ms fs).length = 64 := by
    simp [length_quantLevels, length_of_mfRow hm, length_of_biasRow hf]
  obtain ⟨-, hch, -⟩ := ha
  have hnch := nch_bounds s
  refine ⟨fun i hi => ?_, nzOf_setNz_self _ _ _ (by omega)⟩
  have hget := List.getElem?_eq_getElem (hlen.symm ▸ hi)
  exact hget.trans (congrArg some (blkAt_storeBlk hlen hi hget).symm)

/-- Settles O28: the command runs, and its levels are the rule's, which fit the registers. -/
theorem quantWritesTheLevels : Obligations.QuantWritesTheLevels := by
  intro s ch qp c m f ha hc hm hf hp lvl
  have hmr := mfRow_of_cells hm
  have hfr := biasRow_of_cells hf
  obtain ⟨t, hrun, -⟩ := runQuant_of_pacc hmr hfr ((paccRow_iff hc m).mpr hp)
  have hlvl : quantLevels (s.qtab qp) (blkRow s ch) ((List.range 64).map m) ((List.range 64).map f)
      = (List.range 64).map fun i => BitVec.ofInt 16 (lvl i) := by
    rw [blkRow_of_cells hc, quantLevels_map]
    simp only [level_eq_ruleLevel]
    rfl
  have hfits : ∀ i, (BitVec.ofInt 16 (lvl i)).toInt = lvl i := fun i => by
    have := toInt_ofInt_level s qp (c i) (m i) (f i)
    rwa [level_eq_ruleLevel] at this
  obtain ⟨hblk, hnz⟩ := runQuant_block ha hmr hfr hrun
  rw [hlvl] at hblk hnz
  refine ⟨t, (exec_quant_of_accepted ha).trans hrun, fun i hi => ⟨?_, hfits i⟩, ?_⟩
  · simpa [hi] using (hblk i hi).symm
  · rw [hnz, nzFlag_map_ofInt hfits]

/-- A `QUANT` whose levels are all 0 leaves the block all-zero and the flag clear. -/
theorem exec_quant_of_zero_levels {s : State} {ch qp : Nat} {c : Nat → Coef} {m : Nat → Mult} {f : Nat → Bias}
    (ha : accepted s ch qp) (hc : blkHolds s ch c) (hm : mfHolds s qp m) (hf : biasHolds s qp f)
    (hp : ∀ i < 64, rulePacc s.cfg.val.accw (c i).toInt (m i).toNat)
    (hzero : ∀ i < 64, ruleLevel (c i).toInt (m i).toNat (f i).toNat (s.cfg.val.qtab.getD qp 0) = 0) :
    ∃ t, exec (.quant ch qp) s = .next t ∧ blkHolds t ch (fun _ => 0) ∧ t.nzOf ch = false := by
  obtain ⟨t, ht, hblk, hnz⟩ := quantWritesTheLevels s ch qp c m f ha hc hm hf hp
  refine ⟨t, ht, fun i hi => ?_, Bool.eq_false_iff.mpr fun hset => ?_⟩
  · exact (hblk i hi).1.trans (congrArg (BitVec.ofInt 16) (hzero i hi))
  · obtain ⟨i, hi, hne⟩ := hnz.mp hset
    exact hne (hzero i hi)

/-- A stored bias is one of R36. -/
theorem bias_toNat_le (f : Bias) : (f.toNat : Int) ≤ 32767 := by
  have := f.isLt
  omega

/-- Settles O33: every accumulator holds the products of zero, and zero's level is 0 with every stored bias. -/
theorem quantPreservesZero : Obligations.QuantPreservesZero := fun s _ _ m f ha hc hm hf =>
  exec_quant_of_zero_levels ha hc hm hf (fun i _ => rulePacc_zero s (m i).toNat) fun i _ =>
    (level_eq_ruleLevel _ _ _ _).symm.trans (level_zero (Int.natCast_nonneg _) (bias_toNat_le (f i)) _ _)

/-- Settles O34: with a table value of 0 every level is 0. -/
theorem quantWithZeroTableEntry : Obligations.QuantWithZeroTableEntry := fun _ _ _ _ _ f ha hc hm hf hp hq =>
  exec_quant_of_zero_levels ha hc hm hf hp fun i _ => by
    rw [hq, ← level_eq_ruleLevel]
    exact level_of_table_zero (Int.natCast_nonneg _) (bias_toNat_le (f i)) _ _

/-- Settles O36: equal inputs make equal rows, and the rows make the precondition, the levels and the flag. -/
theorem quantDependsOnItsInputsOnly : Obligations.QuantDependsOnItsInputsOnly := by
  intro s s' t ch qp hs ha' haccw hqtab hblk hmf hbias he ht
  have ha : accepted s ch qp := accepted_of_ran (.inl rfl) hs he (by simp [ht])
  rw [exec_quant_of_accepted ha] at he
  obtain ⟨ms, fs, hm, hf, hpacc, -⟩ := runQuant_next_iff.mp he
  have hm' := mfRow_congr hmf hm
  have hf' := biasRow_congr hbias hf
  have hrow := blkRow_congr hblk
  have hq : s'.qtab qp = s.qtab qp := hqtab
  have hpacc' : paccRow s'.accw (blkRow s' ch) ms = true := by rwa [hrow, State.accw, haccw]
  obtain ⟨t', he', hphase⟩ := runQuant_of_pacc hm' hf' hpacc'
  obtain ⟨hlvl, hnz⟩ := runQuant_block ha hm hf he
  obtain ⟨hlvl', hnz'⟩ := runQuant_block ha' hm' hf' he'
  rw [hrow, hq] at hlvl' hnz'
  exact ⟨t', (exec_quant_of_accepted ha').trans he', hphase.trans ha'.1,
    fun i hi => Option.some.inj ((hlvl' i hi).symm.trans (hlvl i hi)), hnz'.trans hnz.symm⟩

end Machine
end Sys2Proof
end

section
/-! The family of 41_dequant.md: the arithmetic of one position, the clamp, and what a `DEQUANT` leaves in its block. -/

namespace Sys2Proof
namespace Machine

open Claims

/-! ## The arithmetic of one position (41_dequant.md R162) -/

/-- Twice the rounding constant is the divisor. -/
theorem two_mul_rounding {sh : Nat} (h : 1 ≤ sh) : (2 : Int) * 2 ^ (sh - 1) = 2 ^ sh :=
  mul_pow_sub_one (by omega) 2

theorem dval_mul_le (l g : Int) (sh : Nat) : dval l g sh * 2 ^ sh ≤ l * g + 2 ^ (sh - 1) :=
  Int.ediv_mul_le _ (by positivity)

theorem lt_dval_add_one_mul (l g : Int) (sh : Nat) : l * g + 2 ^ (sh - 1) < (dval l g sh + 1) * 2 ^ sh :=
  Int.lt_ediv_add_one_mul_self _ (by positivity)

/-- On a tie the rounding constant completes the product to the next multiple of the divisor. -/
theorem dval_mul_of_tie {l g : Int} {sh : Nat} (h : 1 ≤ sh) (htie : l * g % 2 ^ sh = 2 ^ (sh - 1)) :
    dval l g sh * 2 ^ sh = l * g + 2 ^ (sh - 1) := by
  refine Int.ediv_mul_cancel (Int.dvd_of_emod_eq_zero ?_)
  rw [← Int.emod_add_emod, htie, ← two_mul, two_mul_rounding h, Int.emod_self]

/-- Settles O40: the shift divides by a power of two, and integer division floors. -/
theorem dequantShiftIsTheFloor : Obligations.DequantShiftIsTheFloor :=
  ⟨fun l g sh _ => ⟨dval_mul_le l g sh, lt_dval_add_one_mul l g sh⟩, fun _ _ _ h => dval_mul_of_tie h,
    by decide, by decide, by decide, by decide⟩

/-! ## Bounds (41_dequant.md R166) -/

theorem rounding_bounds {sh : Nat} (h : sh ≤ 15) : (1 : Int) ≤ 2 ^ (sh - 1) ∧ (2 : Int) ^ (sh - 1) ≤ 16384 :=
  ⟨one_le_pow₀ (by norm_num), (pow_le_pow_right₀ (by norm_num) (by omega : sh - 1 ≤ 14)).trans (by norm_num)⟩

theorem levelProduct_bounds {l g : Int} (hl : -32768 ≤ l) (hl' : l ≤ 32767) (hg : 0 ≤ g) (hg' : g ≤ 65535) :
    -2147450880 ≤ l * g ∧ l * g ≤ 2147385345 := by
  have hupper : l * g ≤ 32767 * 65535 := mul_le_mul hl' hg' hg (by norm_num)
  have hlower : -l * g ≤ 32768 * 65535 := mul_le_mul (by omega) hg' hg (by norm_num)
  rw [neg_mul] at hlower
  omega

/-- Half the product, rounded up, bounds the value from above under every shift: a larger divisor only brings it nearer to 0. -/
theorem dval_le_of_mul_le {l g b : Int} {sh : Nat} (h : 1 ≤ sh) (hb : 0 ≤ b) (hp : l * g ≤ 2 * b) :
    dval l g sh ≤ b := by
  have hr : (1 : Int) ≤ 2 ^ (sh - 1) := one_le_pow₀ (by norm_num)
  have hscale : b ≤ b * 2 ^ (sh - 1) := le_mul_of_one_le_right hb hr
  refine Int.lt_add_one_iff.mp (Int.ediv_lt_of_lt_mul (by positivity) ?_)
  rw [← two_mul_rounding h]
  linarith

theorem le_dval_of_le_mul {l g b : Int} {sh : Nat} (h : 1 ≤ sh) (hb : b ≤ 0) (hp : 2 * b ≤ l * g) :
    b ≤ dval l g sh := by
  have hr : (1 : Int) ≤ 2 ^ (sh - 1) := one_le_pow₀ (by norm_num)
  have hscale : b * 2 ^ (sh - 1) ≤ b := mul_le_of_one_le_right hb hr
  refine Int.le_ediv_of_mul_le (by positivity) ?_
  rw [← two_mul_rounding h]
  linarith

/-- Settles O39: each intermediate is bounded by the bounds of the ones before it. -/
theorem dequantIntermediateBounds : Obligations.DequantIntermediateBounds := by
  intro l g sh hl hl' hg hg' hs hs'
  have hprod := levelProduct_bounds hl hl' hg hg'
  have hround := rounding_bounds hs'
  exact ⟨hprod, hround, by omega, le_dval_of_le_mul hs (by norm_num) (by omega),
    dval_le_of_mul_le hs (by norm_num) (by omega)⟩

/-! ## The clamp (41_dequant.md R164) -/

theorem clamp16_of_lt {v : Int} (h : v < -32768) : clamp16 v = -32768 := if_pos h

theorem clamp16_of_gt {v : Int} (h : 32767 < v) : clamp16 v = 32767 := by
  rw [clamp16, if_neg (by omega), if_pos h]

theorem clamp16_of_range {v : Int} (h : -32768 ≤ v) (h' : v ≤ 32767) : clamp16 v = v := by
  rw [clamp16, if_neg (by omega), if_neg (by omega)]

/-- Settles O41: the three ranges are the three branches of the clamp. -/
theorem clampKeepsTheSignedRange : Obligations.ClampKeepsTheSignedRange :=
  ⟨fun _ => clamp16_of_lt, fun _ => clamp16_of_gt, fun _ => clamp16_of_range, by decide, by decide, by decide, by decide⟩

/-- The model's value is the rule's. -/
theorem clamp16_dval_eq_ruleValue (l g : Int) (sh : Nat) : clamp16 (dval l g sh) = ruleValue l g sh := rfl

/-- A value fits its register, since it is clamped. -/
theorem toInt_ofInt_ruleValue (l g : Int) (sh : Nat) :
    (BitVec.ofInt 16 (ruleValue l g sh)).toInt = ruleValue l g sh := by
  obtain ⟨h, h'⟩ := clamp16_bounds (dval l g sh)
  exact toInt_ofInt_of_range h h'

/-! ## What a `DEQUANT` leaves in its block and its flags (41_dequant.md R167, R168) -/

/-- An accepted `DEQUANT` over a written row completes, leaves the values of its rows in the block and keeps the flags. -/
theorem exec_dequant_of_row {ch qp : Nat} {s : State} {gs : List Mult} (ha : accepted s ch qp)
    (hg : dqmfRow s qp = some gs) :
    ∃ t, exec (.dequant ch qp) s = .next t ∧ t.phase = s.phase ∧ t.nz = s.nz
      ∧ ∀ i < 64, (dequantValues (s.shtab qp) (blkRow s ch) gs)[i]? = some (t.blkAt (blkAddr ch i)) := by
  have hlen : (dequantValues (s.shtab qp) (blkRow s ch) gs).length = 64 := by
    simp [length_dequantValues, length_of_dqmfRow hg]
  refine ⟨_, (exec_dequant_of_accepted ha).trans (runDequant_next_iff.mpr ⟨gs, hg, rfl⟩), rfl, rfl, fun i hi => ?_⟩
  have hget := List.getElem?_eq_getElem (hlen.symm ▸ hi)
  exact hget.trans (congrArg some (blkAt_storeBlk hlen hi hget).symm)

/-- Settles O37: the command completes over its row, and the value of each position is the rule's, which fits. -/
theorem dequantWritesTheClampedValues : Obligations.DequantWritesTheClampedValues := by
  intro s ch qp l g ha hl hg out
  obtain ⟨t, ht, -, hnz, hblk⟩ := exec_dequant_of_row ha (dqmfRow_of_cells hg)
  refine ⟨t, ht, fun i hi => ⟨?_, toInt_ofInt_ruleValue _ _ _⟩, hnz⟩
  have hmult : ((List.range 64).map g)[i]? = some (g i) := by simp [hi]
  have hval := getElem?_dequantValues (sh := s.shtab qp) (getElem?_blkRow s ch hi) hmult
  rw [hl i hi, clamp16_dval_eq_ruleValue] at hval
  exact Option.some.inj ((hblk i hi).symm.trans hval)

/-! ## Zeros (41_dequant.md R169) -/

/-- Without a product the rounding constant alone is shifted, and it is below the divisor. -/
theorem dval_of_mul_eq_zero {l g : Int} {sh : Nat} (h : 1 ≤ sh) (hp : l * g = 0) : dval l g sh = 0 := by
  rw [dval, hp, zero_add]
  exact Int.ediv_eq_zero_of_lt (by positivity) (pow_lt_pow_right₀ (by norm_num) (by omega))

/-- Settles O42: a zero factor makes a zero product, and the block of an accepted command takes the values of its levels. -/
theorem dequantPreservesZero : Obligations.DequantPreservesZero := by
  refine ⟨fun g _ h => dval_of_mul_eq_zero h (zero_mul g), fun l _ h => dval_of_mul_eq_zero h (mul_zero l),
    fun s ch qp g ha hl hg => ?_⟩
  obtain ⟨t, ht, hblk, -⟩ := dequantWritesTheClampedValues s ch qp (fun _ => 0) g ha hl hg
  obtain ⟨-, -, hqp⟩ := ha
  obtain ⟨hs, -⟩ := shtab_bounds s hqp
  refine ⟨t, ht, fun i hi => (hblk i hi).1.trans ?_⟩
  have hzero : dval (0 : Coef).toInt (g i).toNat (s.shtab qp) = 0 := dval_of_mul_eq_zero hs (zero_mul _)
  exact congrArg (fun v => BitVec.ofInt 16 (clamp16 v)) hzero

/-! ## What a `DEQUANT` depends on (41_dequant.md R171) -/

/-- Settles O43: equal inputs make equal rows, and the rows make the values. -/
theorem dequantDependsOnItsInputsOnly : Obligations.DequantDependsOnItsInputsOnly := by
  intro s s' t ch qp hs ha' hshtab hblk hdqmf he ht
  have ha : accepted s ch qp := accepted_of_ran (.inr rfl) hs he (by simp [ht])
  obtain ⟨gs, hg, -⟩ := runDequant_next_iff.mp ((exec_dequant_of_accepted ha).symm.trans he)
  obtain ⟨t₀, he₀, -, -, hval⟩ := exec_dequant_of_row ha hg
  obtain rfl : t₀ = t := by simpa using he₀.symm.trans he
  obtain ⟨t', he', hphase, -, hval'⟩ := exec_dequant_of_row ha' (dqmfRow_congr hdqmf hg)
  have hsh : s'.shtab qp = s.shtab qp := hshtab
  rw [blkRow_congr hblk, hsh] at hval'
  exact ⟨t', he', hphase.trans ha'.1, fun i hi => Option.some.inj ((hval' i hi).symm.trans (hval i hi))⟩

end Machine
end Sys2Proof
end

section
/-! The family of 42_dispatch.md: the selection over a catalog, what `DISPATCH` binds and freezes, and the transitions of
`PHASE`. -/

namespace Sys2Proof
namespace Machine

open Claims

/-! ## The selection over a catalog (R180) -/

theorem entryMatches_iff (feat : Word) (e : CatEntry) : entryMatches feat e = true ↔ gateHeld feat e :=
  decide_eq_true_iff

theorem isLastMatch_cons_iff {e : CatEntry} {es : List CatEntry} {feat : Word} {id : VariantId} :
    IsLastMatch (e :: es) feat id ↔
      IsLastMatch es feat id ∨ ((∀ x ∈ es, ¬ gateHeld feat x) ∧ gateHeld feat e ∧ id = BitVec.ofNat 8 e.id) := by
  constructor
  · rintro ⟨before, x, after, hcat, hx, hafter, hid⟩
    rcases List.cons_eq_append_iff.mp hcat with ⟨-, htail⟩ | ⟨before', -, hes⟩
    · cases htail
      exact .inr ⟨hafter, hx, hid⟩
    · exact .inl ⟨before', x, after, hes, hx, hafter, hid⟩
  · rintro (⟨before, x, after, rfl, hx, hafter, hid⟩ | ⟨hafter, he, hid⟩)
    · exact ⟨e :: before, x, after, rfl, hx, hafter, hid⟩
    · exact ⟨[], e, es, rfl, he, hafter, hid⟩

theorem sel_eq_none_iff (cat : List CatEntry) (feat : Word) :
    sel cat feat = none ↔ ∀ e ∈ cat, ¬ gateHeld feat e := by
  simp only [sel, Option.map_eq_none_iff, List.getLast?_eq_none_iff, List.filter_eq_nil_iff, entryMatches_iff]

theorem sel_eq_some_iff (cat : List CatEntry) (feat : Word) (id : VariantId) :
    sel cat feat = some id ↔ IsLastMatch cat feat id := by
  induction cat with
  | nil => simp [IsLastMatch]
  | cons e es ih =>
    rw [sel_cons, Option.or_eq_some_iff, ih, sel_eq_none_iff, isLastMatch_cons_iff, Option.ite_none_right_eq_some,
      entryMatches_iff, Option.some.injEq, eq_comm (a := id)]

theorem exists_sel_of_hasBaseline {cat : List CatEntry} (h : hasBaseline cat = true) (feat : Word) :
    ∃ id, sel cat feat = some id :=
  Option.isSome_iff_exists.mp (sel_isSome_of_hasBaseline h feat)

theorem hasBaseline_catQ (c : ValidConfig) : hasBaseline c.val.catQ = true := by
  obtain ⟨-, -, -, -, -, -, hq, -⟩ := c.val.wf_iff.mp c.property
  exact (hasBaseline_iff _).mpr hq

theorem hasBaseline_catDq (c : ValidConfig) : hasBaseline c.val.catDq = true := by
  obtain ⟨-, -, -, -, -, -, -, hd, -⟩ := c.val.wf_iff.mp c.property
  exact (hasBaseline_iff _).mpr hd

/-- Settles O24: `sel` takes the later match at each entry, and the first entry of a baselined catalog matches every mask. -/
theorem selIsTheLastMatch : Obligations.SelIsTheLastMatch :=
  ⟨sel_eq_some_iff, sel_eq_none_iff,
    fun e es feat h => exists_sel_of_hasBaseline ((hasBaseline_iff _).mpr ⟨e, es, rfl, h⟩) feat,
    fun c feat => ⟨exists_sel_of_hasBaseline (hasBaseline_catQ c) feat, exists_sel_of_hasBaseline (hasBaseline_catDq c) feat⟩⟩

/-! ## What `DISPATCH` binds (R181 to R184) -/

theorem exec_dispatch_of_config {s : State} (h : s.phase = .config) : exec .dispatch s = .next (runDispatch s) := by
  simp only [exec, execDispatch, h]

theorem exec_dispatch_of_ready {s : State} (h : s.phase = .ready) :
    exec .dispatch s = .next (raiseCommand .badPhase .dispatch s) := by
  simp only [exec, execDispatch, h]

/-- Over a catalog with a baseline the fallback of a binding is never used (assumption log 16). -/
theorem isLastMatch_getD_sel {cat : List CatEntry} (h : hasBaseline cat = true) (feat : Word) (fallback : VariantId) :
    IsLastMatch cat feat ((sel cat feat).getD fallback) := by
  obtain ⟨id, hid⟩ := exists_sel_of_hasBaseline h feat
  rw [hid]
  exact (sel_eq_some_iff _ _ _).mp hid

/-- The flat override (R184). -/
theorem isLastMatch_boundDequant_flat {c : Config} {feat : Word} (h : ∃ e ∈ c.catDqFlat, gateHeld feat e) :
    IsLastMatch c.catDqFlat feat (boundDequant c feat .flat) := by
  have hsome : sel c.catDqFlat feat ≠ none := fun hn => by
    obtain ⟨e, he, hgate⟩ := h
    exact (sel_eq_none_iff _ _).mp hn e he hgate
  obtain ⟨id, hid⟩ := Option.ne_none_iff_exists'.mp hsome
  simp only [boundDequant, hid]
  exact (sel_eq_some_iff _ _ _).mp hid

/-- Without the flat override the generic binding stands (R184). -/
theorem boundDequant_eq_genericDequant {c : Config} {feat : Word} {preset : Preset}
    (h : ¬ (preset = .flat ∧ ∃ e ∈ c.catDqFlat, gateHeld feat e)) :
    boundDequant c feat preset = genericDequant c feat := by
  cases preset with
  | custom => rfl
  | flat =>
    have hnone : sel c.catDqFlat feat = none :=
      (sel_eq_none_iff _ _).mpr fun e he hgate => h ⟨rfl, e, he, hgate⟩
    simp only [boundDequant, hnone]

/-- Settles O25: `runDispatch` writes the three registers, and each binding is the last match of its catalog. -/
theorem dispatchBindsTheLastMatches : Obligations.DispatchBindsTheLastMatches := by
  intro s hp
  refine ⟨_, _, exec_dispatch_of_config hp, isLastMatch_getD_sel (hasBaseline_catQ s.cfg) _ _, ?_, fun hgeneric => ?_⟩
  · rintro ⟨hflat, hmatch⟩
    rw [hflat]
    exact isLastMatch_boundDequant_flat hmatch
  · rw [boundDequant_eq_genericDequant hgeneric]
    exact isLastMatch_getD_sel (hasBaseline_catDq s.cfg) _ _

theorem exec_dispatch_of_bindings {s : State} {q d : VariantId} (h : s.phase = .config)
    (hq : boundQuant s.cfg.val s.cpufeat = q) (hd : boundDequant s.cfg.val s.cpufeat s.cqm = d) :
    exec .dispatch s = .next { s with qsel := q, dqsel := d, phase := .ready } := by
  subst hq hd
  exact exec_dispatch_of_config h

/-- The default catalogs hold one entry, which matches every mask. -/
theorem sel_singleton_of_gate_zero (id : Nat) (feat : Word) : sel [⟨id, 0⟩] feat = some (BitVec.ofNat 8 id) := by
  rw [sel_cons, if_pos (entryMatches_of_gate_zero rfl feat)]
  rfl

/-- Settles O26: the default catalogs bind their one entry, and the rows of the table are the selection evaluated. -/
theorem exampleCatalogsBindAsTabled : Obligations.ExampleCatalogsBindAsTabled := by
  intro s hp binds
  refine ⟨fun hQ hD hF feat preset => exec_dispatch_of_bindings hp ?_ ?_, fun hQ hD hF => ?_⟩
  · simp only [boundQuant, hQ, sel_singleton_of_gate_zero]
    rfl
  · rw [boundDequant_eq_genericDequant (by simp [hF])]
    simp only [genericDequant, hD, sel_singleton_of_gate_zero]
    rfl
  · refine ⟨?_, ?_, ?_, ?_, ?_, ?_, ?_, ?_⟩
    all_goals
      refine exec_dispatch_of_bindings hp ?_ ?_
      · simp only [boundQuant, hQ]
        rfl
      · simp only [boundDequant, genericDequant, hD, hF]
        rfl

/-! ## What `DISPATCH` freezes (R185) -/

/-- `t` is out of CONFIG and has the Implementation Handle, the dispatcher's inputs and the tables of `s`. -/
def FrozenAs (s t : State) : Prop :=
  t.phase ≠ .config ∧ t.qsel = s.qsel ∧ t.dqsel = s.dqsel ∧ t.cpufeat = s.cpufeat ∧ t.cqm = s.cqm ∧ t.mf = s.mf
    ∧ t.bias = s.bias ∧ t.dqmf = s.dqmf

theorem FrozenAs.refl {s : State} (h : s.phase ≠ .config) : FrozenAs s s := ⟨h, rfl, rfl, rfl, rfl, rfl, rfl, rfl⟩

theorem frozenAs_raiseFault (s : State) (code : FaultCode) (a : Addr) (d : Word) (w : Bool) :
    FrozenAs s (raiseFault code a d w s) :=
  ⟨by simp, rfl, rfl, rfl, rfl, rfl, rfl, rfl⟩

/-- Only the `BLK` registers are writable after `DISPATCH` (20_memory.md R61). -/
theorem access_eq_readWrite {l : Location} (h : access l = .readWrite) : ∃ ch i, l = .blk ch i := by
  cases l with
  | blk ch i => exact ⟨ch, i, rfl⟩
  | _ => cases h

theorem frozenAs_exec {i : Instr} {s t : State} (hs : s.phase ≠ .config) (h : exec i s = .next t) : FrozenAs s t := by
  rcases exec_next h with ⟨-, rfl⟩ | ⟨-, code, -, -, rfl⟩ | ⟨hp, -⟩ | ⟨-, ch, qp, -, -, -, hr⟩ | ⟨-, ch, qp, -, -, -, hr⟩
  · exact .refl hs
  · exact frozenAs_raiseFault s _ _ _ _
  · exact absurd hp hs
  · obtain ⟨vs, -, rfl⟩ := runQuant_next hr
    exact ⟨hs, rfl, rfl, rfl, rfl, rfl, rfl, rfl⟩
  · obtain ⟨vs, -, rfl⟩ := runDequant_next hr
    exact ⟨hs, rfl, rfl, rfl, rfl, rfl, rfl, rfl⟩

theorem frozenAs_hostRead {a : Addr} {s t : State} (hs : s.phase ≠ .config) (h : hostRead a s = .next t) :
    FrozenAs s t := by
  rcases hostRead_next h with ⟨v, rfl⟩ | ⟨-, -, rfl⟩
  · exact ⟨hs, rfl, rfl, rfl, rfl, rfl, rfl, rfl⟩
  · exact frozenAs_raiseFault s .badAddr a 0 false

theorem frozenAs_hostWrite {a : Addr} {d : Word} {s t : State} (hs : s.phase ≠ .config)
    (h : hostWrite a d s = .next t) : FrozenAs s t := by
  rcases hostWrite_next h with ⟨-, rfl⟩ | ⟨-, code, -, rfl, -⟩ | ⟨-, -, rfl, ⟨-, hp⟩ | hacc⟩ | ⟨-, -, i, -, he⟩
  · exact .refl hs
  · exact frozenAs_raiseFault s _ _ _ _
  · exact absurd hp hs
  · obtain ⟨ch, i, hl⟩ := access_eq_readWrite hacc
    rw [hl]
    exact ⟨hs, rfl, rfl, rfl, rfl, rfl, rfl, rfl⟩
  · exact frozenAs_exec hs he

theorem frozenAs_step {s t : State} (hs : s.phase ≠ .config) (hreset : ∀ rest, s.pending ≠ .reset :: rest)
    (h : step s = .next t) : FrozenAs s t := by
  rcases step_next h with ⟨-, rfl⟩ | ⟨op, rest, hp, ho⟩
  · exact .refl hs
  cases op with
  | read a => exact frozenAs_hostRead (s := { s with pending := rest }) hs ho
  | write a d => exact frozenAs_hostWrite (s := { s with pending := rest }) hs ho
  | reset => exact absurd hp (hreset rest)

theorem hostWrite_of_configOnly_in_ready {s : State} {a : Addr} (d : Word) (hs : s.phase = .ready)
    (h : access (location s.nch a) = .configOnly) : hostWrite a d s = .next (raiseFault .frozen a d true s) := by
  simp [hostWrite, hs, h]

theorem hostWrite_of_readOnly {s : State} {a : Addr} (d : Word) (hs : s.phase ≠ .fault)
    (h : access (location s.nch a) = .readOnly) : hostWrite a d s = .next (raiseFault .roWrite a d true s) := by
  simp [hostWrite, hs, h]

/-- `QSEL` and `DQSEL` are read-only. -/
theorem access_of_handleAddr {nch : Nat} {a : Addr} (h : a.toNat = 5 ∨ a.toNat = 6) :
    access (location nch a) = .readOnly := by
  rw [location_of_global (by omega)]
  rcases h with h | h <;> rw [h] <;> rfl

/-- Settles O27: every step but reset leaves the frozen fields, and a write to one of them meets its access kind. -/
theorem dispatchFreezesHandleAndTables : Obligations.DispatchFreezesHandleAndTables :=
  ⟨fun _ hp => ⟨_, exec_dispatch_of_config hp, rfl⟩,
  fun _ _ => frozenAs_step,
  fun _ _ d hp => ⟨fun ha => hostWrite_of_configOnly_in_ready d hp (access_of_configOnlyAddr ha),
    fun ha => hostWrite_of_readOnly d (by simp [hp]) (access_of_handleAddr ha)⟩,
  fun _ => exec_dispatch_of_ready⟩

/-! ## The block commands do not read the handle (R186, R187) -/

/-- `s` with another Implementation Handle and other inputs of the dispatcher. -/
def State.withHandle (q d : VariantId) (feat : Word) (preset : Preset) (s : State) : State :=
  { s with qsel := q, dqsel := d, cpufeat := feat, cqm := preset }

section
variable (q d : VariantId) (feat : Word) (preset : Preset) (s : State)

@[simp] theorem withHandle_phase : (s.withHandle q d feat preset).phase = s.phase := rfl
@[simp] theorem withHandle_nch : (s.withHandle q d feat preset).nch = s.nch := rfl

theorem runQuant_withHandle (ch qp : Nat) :
    runQuant ch qp (s.withHandle q d feat preset) = mapNext (State.withHandle q d feat preset) (runQuant ch qp s) := by
  have hm : mfRow (s.withHandle q d feat preset) qp = mfRow s qp := rfl
  have hf : biasRow (s.withHandle q d feat preset) qp = biasRow s qp := rfl
  have hb : blkRow (s.withHandle q d feat preset) ch = blkRow s ch := rfl
  have hw : (s.withHandle q d feat preset).accw = s.accw := rfl
  simp only [runQuant, hm, hf, hb, hw]
  split
  · split <;> rfl
  · rfl

theorem runDequant_withHandle (ch qp : Nat) :
    runDequant ch qp (s.withHandle q d feat preset) =
      mapNext (State.withHandle q d feat preset) (runDequant ch qp s) := by
  have hg : dqmfRow (s.withHandle q d feat preset) qp = dqmfRow s qp := rfl
  simp only [runDequant, hg]
  split <;> rfl

/-- The checks of R104 read the phase and the number of channels, so a block command is as blind to the handle as its run. -/
theorem checkBlockCommand_withHandle {run : State → Result} (i : Instr) (ch qp : Nat)
    (hrun : run (s.withHandle q d feat preset) = mapNext (State.withHandle q d feat preset) (run s)) :
    checkBlockCommand i ch qp (s.withHandle q d feat preset) run =
      mapNext (State.withHandle q d feat preset) (checkBlockCommand i ch qp s run) := by
  simp only [checkBlockCommand, withHandle_phase, withHandle_nch, hrun]
  split
  · rfl
  · rfl
  · split_ifs <;> rfl

end

/-- Settles O49: neither the checks nor the runs of the two commands read the four registers. -/
theorem variantsDoNotChangeResults : Obligations.VariantsDoNotChangeResults := by
  rintro s ch qp i q d feat preset (rfl | rfl)
  · exact checkBlockCommand_withHandle q d feat preset s _ ch qp (runQuant_withHandle q d feat preset s ch qp)
  · exact checkBlockCommand_withHandle q d feat preset s _ ch qp (runDequant_withHandle q d feat preset s ch qp)

/-! ## The transitions of `PHASE` (R189) -/

/-- The step from `s` to `t` entered FAULT with a code (60_exceptions.md R203). -/
def EntersFault (s t : State) : Prop := s.phase ≠ .fault ∧ t.phase = .fault ∧ t.fcode ≠ .none

theorem exec_phase {i : Instr} {s t : State} (h : exec i s = .next t) :
    t.phase = s.phase ∨ (s.phase = .config ∧ t.phase = .ready ∧ i = .dispatch) ∨ EntersFault s t := by
  rcases exec_next h with ⟨-, rfl⟩ | ⟨hp, code, hcode, -, rfl⟩ | ⟨hp, hi, rfl⟩ | ⟨-, ch, qp, -, -, -, hr⟩
    | ⟨-, ch, qp, -, -, -, hr⟩
  · exact .inl rfl
  · exact .inr (.inr ⟨hp, rfl, hcode⟩)
  · exact .inr (.inl ⟨hp, rfl, hi⟩)
  · obtain ⟨vs, -, rfl⟩ := runQuant_next hr
    exact .inl rfl
  · obtain ⟨vs, -, rfl⟩ := runDequant_next hr
    exact .inl rfl

theorem hostRead_phase {a : Addr} {s t : State} (h : hostRead a s = .next t) :
    t.phase = s.phase ∨ EntersFault s t := by
  rcases hostRead_next h with ⟨v, rfl⟩ | ⟨hp, -, rfl⟩
  · exact .inl rfl
  · exact .inr ⟨hp, rfl, by simp⟩

theorem hostWrite_phase {a : Addr} {d : Word} {s t : State} (h : hostWrite a d s = .next t) :
    t.phase = s.phase ∨ (s.phase = .config ∧ t.phase = .ready ∧ a = cmdAddr ∧ d = encode .dispatch)
      ∨ EntersFault s t := by
  rcases hostWrite_next h with ⟨-, rfl⟩ | ⟨hp, code, hcode, rfl, -⟩ | ⟨-, -, rfl, -⟩ | ⟨-, ha, i, hd, he⟩
  · exact .inl rfl
  · exact .inr (.inr ⟨hp, rfl, hcode⟩)
  · exact .inl (storeLocation_phase _ _ _)
  · refine (exec_phase he).imp_right (Or.imp_left ?_)
    rintro ⟨hconfig, hready, rfl⟩
    exact ⟨hconfig, hready, ha, (decode_eq_ok_iff.mp hd).2.symm⟩

/-- Settles O53: the phase changes by reset, by the write of the `DISPATCH` word or by a fault entry. -/
theorem phaseTransitions : Obligations.PhaseTransitions := by
  intro s t h
  rcases step_next h with ⟨-, rfl⟩ | ⟨op, rest, hp, ho⟩
  · exact .inl rfl
  cases op with
  | read a => exact (hostRead_phase ho).imp_right fun hf => .inr (.inr hf)
  | write a d =>
    rcases hostWrite_phase ho with hkept | ⟨hconfig, hready, rfl, rfl⟩ | hf
    · exact .inl hkept
    · exact .inr (.inr (.inl ⟨hconfig, hready, rest, hp⟩))
    · exact .inr (.inr (.inr hf))
  | reset =>
    obtain rfl : resetBlock { s with pending := rest } = t := by simpa [hostOp] using ho
    exact .inr (.inl ⟨rfl, rest, hp⟩)

end Machine
end Sys2Proof
end

section
/-! The family of 60_exceptions.md: which access raises which fault, what a fault entry records, and what is left in FAULT
phase. -/

namespace Sys2Proof
namespace Machine

open Claims

/-! ## Where the commands trap -/

/-- A block command is its checks, before anything of its own. -/
theorem exec_eq_checkBlockCommand {i : Instr} {ch qp : Nat} (s : State) (hi : i = .quant ch qp ∨ i = .dequant ch qp) :
    ∃ run, exec i s = checkBlockCommand i ch qp s run := by
  rcases hi with rfl | rfl
  · exact ⟨runQuant ch qp, rfl⟩
  · exact ⟨runDequant ch qp, rfl⟩

section
variable {i : Instr} {ch qp : Nat} {s : State}

theorem exec_block_of_config (hi : i = .quant ch qp ∨ i = .dequant ch qp) (hp : s.phase = .config) :
    exec i s = .next (raiseCommand .badPhase i s) := by
  obtain ⟨run, hrun⟩ := exec_eq_checkBlockCommand s hi
  simp only [hrun, checkBlockCommand, hp]

theorem exec_block_of_absentChannel (hi : i = .quant ch qp ∨ i = .dequant ch qp) (hp : s.phase = .ready)
    (hc : s.nch ≤ ch) : exec i s = .next (raiseCommand .badCh i s) := by
  obtain ⟨run, hrun⟩ := exec_eq_checkBlockCommand s hi
  simp only [hrun, checkBlockCommand, hp, if_pos hc]

theorem exec_block_of_qpRange (hi : i = .quant ch qp ∨ i = .dequant ch qp) (hp : s.phase = .ready) (hc : ch < s.nch)
    (hq : 64 ≤ qp) : exec i s = .next (raiseCommand .qpRange i s) := by
  obtain ⟨run, hrun⟩ := exec_eq_checkBlockCommand s hi
  simp only [hrun, checkBlockCommand, hp, if_neg (Nat.not_le.mpr hc), if_pos hq]

end

/-- Settles O44: the checks of a block command in their order, `DISPATCH` in READY, and the ignored write in FAULT. -/
theorem blockCommandTraps : Obligations.BlockCommandTraps :=
  ⟨fun _ _ _ _ hi => ⟨exec_block_of_config hi, exec_block_of_absentChannel hi, exec_block_of_qpRange hi⟩,
  fun _ => exec_dispatch_of_ready,
  fun _ i => exec_of_fault i⟩

/-! ## Unmapped addresses (R205) -/

theorem globalLocation_of_ge {n : Nat} (h : 9 ≤ n) : globalLocation n = .unmapped := by
  unfold globalLocation
  split
  case h_9 => rfl
  all_goals omega

/-- The addresses R205 calls unmapped name no location. -/
theorem location_of_unmappedAddr {nch : Nat} {a : Addr} (h : unmappedAddr nch a.toNat) :
    location nch a = .unmapped := by
  rcases h with h | ⟨hlo, hhi⟩ | ⟨hlo, hhi⟩ | ⟨hlo, hhi, hoff⟩ | ⟨hlo, -⟩
  · rw [location_of_global (by omega), h]; rfl
  · rw [location_of_global (by omega), globalLocation_of_ge hlo]
  · exact location_of_hole hlo (by omega)
  · rw [location_of_window hlo hhi, windowLocation_of_hole (by omega)]
  · exact location_of_above hlo

section
variable {s : State} {a : Addr} (h : location s.nch a = .unmapped)
include h

theorem hostRead_of_unmapped (hp : s.phase ≠ .fault) :
    hostRead a s = .next ((raiseFault .badAddr a 0 false s).answer 0) := by
  simp [hostRead, h, access, hp]

theorem hostRead_of_unmapped_in_fault (hp : s.phase = .fault) : hostRead a s = .next (s.answer 0) := by
  simp [hostRead, h, access, hp]

theorem hostWrite_of_unmapped (d : Word) (hp : s.phase ≠ .fault) :
    hostWrite a d s = .next (raiseFault .badAddr a d true s) := by
  simp [hostWrite, h, access, hp]

end

/-- Settles O12: the address names no location, which the port answers with `BADADDR`, and `CMD` is a location. -/
theorem unmappedAccessRaisesBadAddr : Obligations.UnmappedAccessRaisesBadAddr := by
  refine ⟨fun s a hp ha => ?_, fun s => hostRead_of_value (l := .cmd) rfl (by decide) rfl rfl⟩
  have hloc := location_of_unmappedAddr ha
  exact ⟨hostRead_of_unmapped hloc hp, fun d => hostWrite_of_unmapped hloc d hp⟩

/-! ## Writes that raise (R206 to R208) -/

/-- The addresses of R206 name read-only locations. -/
theorem access_of_readOnlyAddr {nch : Nat} {a : Addr} (h : readOnlyAddr nch a.toNat) :
    access (location nch a) = .readOnly := by
  rcases h with h | h | h | h | h | ⟨hlo, hhi⟩ | ⟨hlo, hhi, hoff⟩
  · rw [location_of_global (by omega), h]; rfl
  · rw [location_of_global (by omega), h]; rfl
  · rw [location_of_global (by omega), h]; rfl
  · exact access_of_handleAddr (.inl h)
  · exact access_of_handleAddr (.inr h)
  · rcases Nat.lt_or_ge a.toNat 0x0140 with hq | hs
    · rw [location_of_qtab hlo hq]; rfl
    · rw [location_of_shtab hs (by omega)]; rfl
  · rw [location_of_window hlo hhi, hoff, windowLocation_of_nz]; rfl

/-- Settles O13: the address names a read-only location. -/
theorem readOnlyWriteRaisesRoWrite : Obligations.ReadOnlyWriteRaisesRoWrite :=
  fun _ _ d hp ha => hostWrite_of_readOnly d hp (access_of_readOnlyAddr ha)

/-- Settles O14: the address names a location writable in CONFIG only. -/
theorem tableWriteInReadyRaisesFrozen : Obligations.TableWriteInReadyRaisesFrozen :=
  fun _ _ d hp ha => hostWrite_of_configOnly_in_ready d hp (access_of_configOnlyAddr ha)

/-- At a writable address only the data R65 calls legal is legal. -/
theorem legalData_of_legal {nch : Nat} {a : Addr} {d : Word} (hl : legal (location nch a) d = true)
    (ha : configOnlyAddr a.toNat ∨ blkRegAddr nch a.toNat) : legalData a.toNat d.toNat := by
  rcases ha with (h | h | ⟨hlo, hhi⟩) | h
  · exact .inl h
  · rw [location_of_cqm h] at hl
    exact .inr (.inl ⟨h, of_decide_eq_true hl⟩)
  · rcases Nat.lt_or_ge a.toNat 0x2000 with h2 | h2
    · rw [location_of_mf hlo h2] at hl
      have hd : 1 ≤ d.toNat ∧ d.toNat ≤ 65535 := of_decide_eq_true hl
      omega
    rcases Nat.lt_or_ge a.toNat 0x3000 with h3 | h3
    · rw [location_of_bias h2 h3] at hl
      have hd : d.toNat ≤ 32767 := of_decide_eq_true hl
      omega
    · rw [location_of_dqmf h3 (by omega)] at hl
      have hd : d.toNat ≤ 65535 := of_decide_eq_true hl
      omega
  · obtain ⟨ch, i, hloc, -⟩ := location_of_blkRegAddr h
    rw [hloc] at hl
    have hd := (eq_sext16_iff d).mp (of_decide_eq_true hl)
    omega

/-- A write of other data to a location writable in this phase raises `RANGE`. -/
theorem hostWrite_of_not_legal {s : State} {a : Addr} {d : Word} (hw : writableNow s (location s.nch a))
    (hl : ¬ legal (location s.nch a) d = true) : hostWrite a d s = .next (raiseFault .range a d true s) := by
  rcases hw with ⟨hacc, hp⟩ | ⟨hacc, hp⟩
  · simp [hostWrite, hacc, hp, writeChecked, hl]
  · rw [hostWrite_of_readWrite d hacc hp, writeChecked, if_neg hl]

/-- Settles O15: the data is not legal at the location the address names, and READY freezes all of them but `BLK`. -/
theorem illegalDataRaisesRange : Obligations.IllegalDataRaisesRange := by
  refine fun s a d => ⟨fun hd => ⟨fun ha hp => ?_, fun ha hp => ?_⟩, fun ha hp => tableWriteInReadyRaisesFrozen s a d hp ha⟩
  · exact hostWrite_of_not_legal (.inl ⟨access_of_configOnlyAddr ha, hp⟩) fun hl => hd (legalData_of_legal hl (.inl ha))
  · obtain ⟨ch, i, hloc, -⟩ := location_of_blkRegAddr ha
    exact hostWrite_of_not_legal (.inr ⟨by rw [hloc]; rfl, hp⟩) fun hl => hd (legalData_of_legal hl (.inr ha))

/-! ## FAULT phase (R204, R219) -/

theorem hostWrite_of_fault {s : State} (a : Addr) (d : Word) (h : s.phase = .fault) : hostWrite a d s = .next s :=
  if_pos h

/-- Settles O19: the write is ignored before anything else, and a read goes by the location, as in every phase. -/
theorem faultPhaseServesReadsOnly : Obligations.FaultPhaseServesReadsOnly := by
  refine fun s hp => ⟨fun a d => hostWrite_of_fault a d hp,
    fun a ha => hostRead_of_unmapped_in_fault (location_of_unmappedAddr ha) hp, fun a v ha hblk hv => ?_⟩
  have hmapped : access (location s.nch a) ≠ .reserved := fun h => ha (unmappedAddr_of_location (access_eq_reserved h))
  have hwritten : readsUnwritten s (location s.nch a) = false := by
    rw [← Bool.not_eq_true, readsUnwritten_iff]
    rintro ⟨ch, i, hloc, hn⟩
    obtain ⟨hlo, hhi, hoff, haddr⟩ := location_eq_blk hloc
    exact hblk ⟨hlo, hhi, by omega⟩ (haddr ▸ hn)
  exact hostRead_of_value rfl hmapped hwritten hv

/-- Settles O54: the idle step, the served read and the ignored write. -/
theorem firstFaultWins : Obligations.FirstFaultWins := by
  intro s t hf hreset hs
  rcases step_next hs with ⟨hp, rfl⟩ | ⟨op, rest, hp, ho⟩
  · have htail : t.pending.tail = t.pending := by rw [hp]; rfl
    rw [htail]
  rw [hp]
  cases op with
  | read a =>
    rcases hostRead_next ho with ⟨v, rfl⟩ | ⟨hne, -⟩
    · rfl
    · exact absurd hf hne
  | write a d =>
    obtain rfl := Host.Outcome.next.inj ((hostWrite_of_fault (s := { s with pending := rest }) a d hf).symm.trans ho)
    rfl
  | reset => exact absurd hp (hreset rest)

/-! ## Fault entry (R203, R215) -/

/-- A command that enters FAULT did nothing but raise. -/
theorem exec_next_fault {i : Instr} {s t : State} (h : exec i s = .next t) (hs : s.phase ≠ .fault)
    (ht : t.phase = .fault) : ∃ code ≠ .none, t = raiseCommand code i s := by
  rcases exec_next h with ⟨hf, -⟩ | ⟨-, code, hcode, -, rfl⟩ | ⟨-, -, rfl⟩ | ⟨-, ch, qp, -, -, -, hr⟩
    | ⟨-, ch, qp, -, -, -, hr⟩
  · exact absurd hf hs
  · exact ⟨code, hcode, rfl⟩
  · cases ht
  · obtain ⟨vs, -, rfl⟩ := runQuant_next hr
    exact absurd ht hs
  · obtain ⟨vs, -, rfl⟩ := runDequant_next hr
    exact absurd ht hs

/-- A read that enters FAULT raised `BADADDR` at its own address and returned 0. -/
theorem hostRead_next_fault {a : Addr} {s t : State} (h : hostRead a s = .next t) (hs : s.phase ≠ .fault)
    (ht : t.phase = .fault) : t = (raiseFault .badAddr a 0 false s).answer 0 := by
  rcases hostRead_next h with ⟨v, rfl⟩ | ⟨-, -, rfl⟩
  · exact absurd ht hs
  · rfl

/-- A write that enters FAULT raised with its own address and data, of a command too. -/
theorem hostWrite_next_fault {a : Addr} {d : Word} {s t : State} (h : hostWrite a d s = .next t)
    (hs : s.phase ≠ .fault) (ht : t.phase = .fault) : ∃ code ≠ .none, t = raiseFault code a d true s := by
  rcases hostWrite_next h with ⟨hf, -⟩ | ⟨-, code, hcode, rfl, -⟩ | ⟨-, -, rfl, -⟩ | ⟨-, rfl, i, hd, he⟩
  · exact absurd hf hs
  · exact ⟨code, hcode, rfl⟩
  · rw [storeLocation_phase] at ht
    exact absurd ht hs
  · obtain ⟨-, rfl⟩ := decode_eq_ok_iff.mp hd
    exact exec_next_fault he hs ht

/-- Settles O55: neither the idle step nor reset enters FAULT, and a read or a write that does only raises. -/
theorem faultsArePrecise : Obligations.FaultsArePrecise := by
  intro s t hf hs ht
  rcases step_next hs with ⟨-, rfl⟩ | ⟨op, rest, hp, ho⟩
  · exact absurd ht hf
  rw [hp]
  cases op with
  | read a =>
    obtain rfl := hostRead_next_fault ho hf ht
    exact ⟨rfl, by simp, .inl ⟨a, rest, rfl, rfl, rfl, rfl, rfl, rfl⟩⟩
  | write a d =>
    obtain ⟨code, hcode, rfl⟩ := hostWrite_next_fault ho hf ht
    exact ⟨rfl, hcode, .inr ⟨a, d, rest, rfl, rfl, rfl, rfl, rfl⟩⟩
  | reset =>
    obtain rfl : resetBlock { s with pending := rest } = t := by simpa [hostOp] using ho
    cases ht

end Machine
end Sys2Proof
end
